-- ==== Sys2Proof/Word.lean ====
section
/-! DEFINITION. The word types of the HW08 core and the tagged value a cell holds (00_scope.md R8, R11, R12). -/

namespace Sys2Proof

/-- A W-bit integer, W = 32, read as two's complement by `BitVec.toInt` (R8, R11). -/
abbrev Word := BitVec 32

/-- A text handle of TEXT_WIDTH = 32 bits; what text it stands for is the host's (R8, R38). -/
abbrev Handle := BitVec 32

/-- An instruction word of 128 bits (R79). -/
abbrev InstrWord := BitVec 128

/-- The W + 1 bits of FAULT_INFO, signed (R32). -/
abbrev InfoWord := BitVec 33

/-- A tagged value, the content of one register or one memory cell (R12). -/
inductive Value where
  /-- The content of a cell nothing has written. -/
  | empty
  /-- An integer. -/
  | int (n : Word)
  /-- A text, by its handle. -/
  | text (t : Handle)
  /-- An instruction, by its word. -/
  | instr (w : InstrWord)
deriving DecidableEq, Repr

/-- `isInt(v)` of R12. -/
def Value.isInt : Value → Bool
  | .int _ => true
  | .empty => false
  | .text _ => false
  | .instr _ => false

end Sys2Proof
end

