-- ==== Sys2Proof/Syntax.lean ====
section
/-! DEFINITION. The instructions of the core: opcodes, register descriptors and one constructor for each row of
the opcode table (00_scope.md R3; 30_encoding.md R73, R79 to R82). -/

namespace Sys2Proof

/-- The closed set of 16 instructions (R3), in the order of the opcode map (R80). -/
inductive Opcode where
  | add | mul | increment | decrement | move | load | push | pop | call | ret | jump | jumpIfTrue
  | testEquals | echo | iinput | halt
deriving DecidableEq, Repr

/-- A decoded register descriptor: the three outputs of the descriptor decoder (R73, R78). `off` means something only
where `ind` holds (R74). Descriptor bits 31 to 25 are ignored by the decoder and are not here. -/
structure Descriptor where
  /-- IDX, the register's index. -/
  idx : BitVec 8
  /-- IND, the indirect flag. -/
  ind : Bool
  /-- OFF, a 16-bit two's complement offset. -/
  off : BitVec 16
deriving DecidableEq, Repr

/-- An instruction: one constructor for each row of the opcode table, its operands in field order A, B, C (R80). A
`Descriptor` operand is of kind D or R, a `Word` operand an integer literal of kind L, a `Handle` operand a text literal. -/
inductive Instr where
  /-- `Add rA, rB, rC` (R123). -/
  | add (a b c : Descriptor)
  /-- `Mul rA, rB, rC` (R124). -/
  | mul (a b c : Descriptor)
  /-- `Increment rA` (R125). -/
  | increment (a : Descriptor)
  /-- `Decrement rA` (R126). -/
  | decrement (a : Descriptor)
  /-- `Move dst, src` with a register source, K = 00 (R142). -/
  | moveReg (dst src : Descriptor)
  /-- `Move dst, n` with an integer literal, K = 01 (R142). -/
  | moveInt (dst : Descriptor) (n : Word)
  /-- `Move dst, "t"` with a text literal, K = 10 (R142). -/
  | moveText (dst : Descriptor) (t : Handle)
  /-- `Load rA, addr` (R143). -/
  | load (a : Descriptor) (addr : Word)
  /-- `Push rA` (R146). -/
  | push (a : Descriptor)
  /-- `Pop rA` (R147). -/
  | pop (a : Descriptor)
  /-- `Call addr` (R161). -/
  | call (addr : Word)
  /-- `Ret` (R162). -/
  | ret
  /-- `Jump addr` (R163). -/
  | jump (addr : Word)
  /-- `JumpIfTrue addr` (R164). -/
  | jumpIfTrue (addr : Word)
  /-- `TestEquals rA, rB` (R128). -/
  | testEquals (a b : Descriptor)
  /-- `Echo a` with a direct or indirect register (R181). -/
  | echo (a : Descriptor)
  /-- `Iinput addr` (R183). -/
  | iinput (addr : Word)
  /-- `Halt` (R165). -/
  | halt
deriving DecidableEq, Repr

/-- The opcode of an instruction; the three forms of Move share one (R80, R82). -/
def Instr.opcode : Instr → Opcode
  | .add _ _ _ => .add
  | .mul _ _ _ => .mul
  | .increment _ => .increment
  | .decrement _ => .decrement
  | .moveReg _ _ => .move
  | .moveInt _ _ => .move
  | .moveText _ _ => .move
  | .load _ _ => .load
  | .push _ => .push
  | .pop _ => .pop
  | .call _ => .call
  | .ret => .ret
  | .jump _ => .jump
  | .jumpIfTrue _ => .jumpIfTrue
  | .testEquals _ _ => .testEquals
  | .echo _ => .echo
  | .iinput _ => .iinput
  | .halt => .halt

end Sys2Proof
end

