-- ==== Sys2Proof/WellFormed.lean ====
section
/-! DEFINITION. Well-formed instruction terms. Of the five checks of 30_encoding.md R84 four are about bits that a term
of `Instr` does not have (an unknown opcode, reserved bits, an illegal K, a nonzero unused field); they are checked on the
word, in Decode. The one a term can break is `direct_ok`: an operand of kind D is a direct register. -/

namespace Sys2Proof

/-- An operand of kind D: a descriptor whose IND is 0 (R81). -/
def Descriptor.direct (d : Descriptor) : Bool := !d.ind

/-- `direct_ok` on a term: every operand of kind D of R80 is direct. Operands of kind R, L and S are free. -/
def Instr.wf : Instr → Bool
  | .add a b c => a.direct && b.direct && c.direct
  | .mul a b c => a.direct && b.direct && c.direct
  | .increment a => a.direct
  | .decrement a => a.direct
  | .moveReg _ _ => true
  | .moveInt _ _ => true
  | .moveText _ _ => true
  | .load a _ => a.direct
  | .push a => a.direct
  | .pop a => a.direct
  | .call _ => true
  | .ret => true
  | .jump _ => true
  | .jumpIfTrue _ => true
  | .testEquals a b => a.direct && b.direct
  | .echo _ => true
  | .iinput _ => true
  | .halt => true

end Sys2Proof
end

