-- ==== Sys2Proof/Decode.lean ====
section
/-! DEFINITION. The bit formats of 30_encoding.md: register descriptors (R73 to R77), the 128-bit instruction word
(R79 to R84) with its decoder and encoder, the opcode table as data, and the 130-bit cell format (R71, R72). -/

namespace Sys2Proof

/-! ## Register descriptors -/

/-- `idx(d)`, bits 7 to 0 (R74). -/
def descIdx (d : BitVec 32) : BitVec 8 := d.extractLsb' 0 8

/-- `ind(d)`, bit 24 (R74). -/
def descInd (d : BitVec 32) : Bool := d.getLsbD 24

/-- `off(d)`, bits 23 to 8, a two's complement field (R74). -/
def descOff (d : BitVec 32) : BitVec 16 := d.extractLsb' 8 16

/-- The register-descriptor decoder (R78); bits 31 to 25 are ignored (R73). -/
def decodeDescriptor (d : BitVec 32) : Descriptor := ⟨descIdx d, descInd d, descOff d⟩

/-- `enc(i, f, o) = i | ((o mod 2^16) << 8) | (f ? 1 << 24 : 0)` (R77). -/
def encDescriptor (i : Nat) (f : Bool) (o : Int) : BitVec 32 :=
  BitVec.ofNat 32 i ||| (BitVec.ofNat 32 (o % 65536).toNat <<< 8) ||| (if f then 1#32 <<< 24 else 0#32)

/-- The field of a decoded descriptor, bits 31 to 25 zero (R77). -/
def Descriptor.field (d : Descriptor) : BitVec 32 := encDescriptor d.idx.toNat d.ind d.off.toInt

/-! ## The instruction word's fields -/

/-- OP = w[7:0] (R79). -/
def opField (w : InstrWord) : BitVec 8 := w.extractLsb' 0 8

/-- K = w[9:8], the source kind of Move (R79, R82). -/
def kField (w : InstrWord) : BitVec 2 := w.extractLsb' 8 2

/-- RSV = w[31:10] (R79). -/
def rsvField (w : InstrWord) : BitVec 22 := w.extractLsb' 10 22

/-- Operand A = w[63:32] (R79). -/
def fieldA (w : InstrWord) : BitVec 32 := w.extractLsb' 32 32

/-- Operand B = w[95:64] (R79). -/
def fieldB (w : InstrWord) : BitVec 32 := w.extractLsb' 64 32

/-- Operand C = w[127:96] (R79). -/
def fieldC (w : InstrWord) : BitVec 32 := w.extractLsb' 96 32

/-! ## The opcode map -/

/-- The opcode numbers of R80. -/
def Opcode.code : Opcode → BitVec 8
  | .add => 0x01#8
  | .mul => 0x02#8
  | .increment => 0x03#8
  | .decrement => 0x04#8
  | .move => 0x05#8
  | .load => 0x06#8
  | .push => 0x07#8
  | .pop => 0x08#8
  | .call => 0x09#8
  | .ret => 0x0A#8
  | .jump => 0x0B#8
  | .jumpIfTrue => 0x0C#8
  | .testEquals => 0x0D#8
  | .echo => 0x0E#8
  | .iinput => 0x0F#8
  | .halt => 0x10#8

/-- The opcode a byte stands for; 0x00 and 0x11 to 0xFF are reserved (R80, R85). -/
def Opcode.ofByte (b : BitVec 8) : Option Opcode :=
  match b with
  | 0x01#8 => some .add
  | 0x02#8 => some .mul
  | 0x03#8 => some .increment
  | 0x04#8 => some .decrement
  | 0x05#8 => some .move
  | 0x06#8 => some .load
  | 0x07#8 => some .push
  | 0x08#8 => some .pop
  | 0x09#8 => some .call
  | 0x0A#8 => some .ret
  | 0x0B#8 => some .jump
  | 0x0C#8 => some .jumpIfTrue
  | 0x0D#8 => some .testEquals
  | 0x0E#8 => some .echo
  | 0x0F#8 => some .iinput
  | 0x10#8 => some .halt
  | _ => none

/-- The operand kinds of R81. -/
inductive OperandKind where
  /-- D: a register descriptor whose IND is 0. -/
  | direct
  /-- R: any register descriptor. -/
  | register
  /-- L: a 32-bit integer literal. -/
  | literal
  /-- S: the source of Move, selected by K. -/
  | moveSource
  /-- Z: unused, all zero. -/
  | unused
deriving DecidableEq, Repr

/-- The kinds of the fields A, B and C of each opcode (R80). -/
def Opcode.kinds : Opcode → OperandKind × OperandKind × OperandKind
  | .add => (.direct, .direct, .direct)
  | .mul => (.direct, .direct, .direct)
  | .increment => (.direct, .unused, .unused)
  | .decrement => (.direct, .unused, .unused)
  | .move => (.register, .moveSource, .unused)
  | .load => (.direct, .literal, .unused)
  | .push => (.direct, .unused, .unused)
  | .pop => (.direct, .unused, .unused)
  | .call => (.literal, .unused, .unused)
  | .ret => (.unused, .unused, .unused)
  | .jump => (.literal, .unused, .unused)
  | .jumpIfTrue => (.literal, .unused, .unused)
  | .testEquals => (.direct, .direct, .unused)
  | .echo => (.register, .unused, .unused)
  | .iinput => (.literal, .unused, .unused)
  | .halt => (.unused, .unused, .unused)

/-! ## The five checks of R84 -/

/-- Check 1, `op_known`: OP is 0x01 to 0x10. -/
def opKnown (w : InstrWord) : Bool := (Opcode.ofByte (opField w)).isSome

/-- Check 2, `rsv_zero`: w[31:10] is 0. -/
def rsvZero (w : InstrWord) : Bool := rsvField w == 0#22

/-- Check 3, `k_legal`: K = 00, or the opcode is Move and K is 01 or 10. -/
def kLegal (o : Opcode) (w : InstrWord) : Bool :=
  kField w == 0#2 || (o == .move && (kField w == 1#2 || kField w == 2#2))

/-- Check 4 on one field: a field of kind D has bit 24 = 0. -/
def fieldDirectOk (k : OperandKind) (f : BitVec 32) : Bool :=
  match k with
  | .direct => !descInd f
  | .register => true
  | .literal => true
  | .moveSource => true
  | .unused => true

/-- Check 4, `direct_ok`. -/
def directOk (o : Opcode) (w : InstrWord) : Bool :=
  fieldDirectOk o.kinds.1 (fieldA w) && fieldDirectOk o.kinds.2.1 (fieldB w) && fieldDirectOk o.kinds.2.2 (fieldC w)

/-- Check 5 on one field: a field of kind Z is 0. -/
def fieldUnusedZero (k : OperandKind) (f : BitVec 32) : Bool :=
  match k with
  | .direct => true
  | .register => true
  | .literal => true
  | .moveSource => true
  | .unused => f == 0#32

/-- Check 5, `unused_zero`. -/
def unusedZero (o : Opcode) (w : InstrWord) : Bool :=
  fieldUnusedZero o.kinds.1 (fieldA w) && fieldUnusedZero o.kinds.2.1 (fieldB w)
    && fieldUnusedZero o.kinds.2.2 (fieldC w)

/-- A well-formed instruction word: all five checks pass (R84). -/
def wordWellFormed (w : InstrWord) : Bool :=
  match Opcode.ofByte (opField w) with
  | none => false
  | some o => rsvZero w && kLegal o w && directOk o w && unusedZero o w

/-! ## Decoder -/

/-- Why a word is illegal: the check of R84 it fails, the first in their order. To the core every one is the same
fault, ILLEGAL_INSTR with info 0 (R106). -/
inductive DecodeError where
  /-- `op_known` fails. -/
  | opUnknown
  /-- `rsv_zero` fails. -/
  | rsvNonzero
  /-- `k_legal` fails. -/
  | kIllegal
  /-- `direct_ok` fails. -/
  | notDirect
  /-- `unused_zero` fails. -/
  | unusedNonzero
deriving DecidableEq, Repr

/-- The instruction of a word of a known opcode, its operands as the opcode's kinds read them (R81 to R83, R107).
Move selects its source by K; K = 11 is reserved. -/
def assemble (o : Opcode) (w : InstrWord) : Except DecodeError Instr :=
  let dA := decodeDescriptor (fieldA w)
  let dB := decodeDescriptor (fieldB w)
  let dC := decodeDescriptor (fieldC w)
  match o with
  | .add => .ok (.add dA dB dC)
  | .mul => .ok (.mul dA dB dC)
  | .increment => .ok (.increment dA)
  | .decrement => .ok (.decrement dA)
  | .move =>
    match kField w with
    | 0#2 => .ok (.moveReg dA dB)
    | 1#2 => .ok (.moveInt dA (fieldB w))
    | 2#2 => .ok (.moveText dA (fieldB w))
    | _ => .error .kIllegal
  | .load => .ok (.load dA (fieldB w))
  | .push => .ok (.push dA)
  | .pop => .ok (.pop dA)
  | .call => .ok (.call (fieldA w))
  | .ret => .ok .ret
  | .jump => .ok (.jump (fieldA w))
  | .jumpIfTrue => .ok (.jumpIfTrue (fieldA w))
  | .testEquals => .ok (.testEquals dA dB)
  | .echo => .ok (.echo dA)
  | .iinput => .ok (.iinput (fieldA w))
  | .halt => .ok .halt

/-- The decoder: total on every word, refusing by the name of the failed check (R84, R106, R107). -/
def decode (w : InstrWord) : Except DecodeError Instr :=
  match Opcode.ofByte (opField w) with
  | none => .error .opUnknown
  | some o =>
    if rsvZero w = false then .error .rsvNonzero
    else if kLegal o w = false then .error .kIllegal
    else if directOk o w = false then .error .notDirect
    else if unusedZero o w = false then .error .unusedNonzero
    else assemble o w

/-! ## Encoder -/

/-- The header H = w[31:0] of an opcode and a source kind, RSV zero (R79). -/
def header (o : Opcode) (k : BitVec 2) : BitVec 32 := 0#22 ++ (k ++ o.code)

/-- A word from its header and its fields, `C_B_A_H` from the most significant 32 bits (R79, R89). -/
def packWord (h a b c : BitVec 32) : InstrWord := c ++ (b ++ (a ++ h))

/-- The encoder: the instruction word of an instruction, every unused field zero (R79 to R82). -/
def encode : Instr → InstrWord
  | .add a b c => packWord (header .add 0) a.field b.field c.field
  | .mul a b c => packWord (header .mul 0) a.field b.field c.field
  | .increment a => packWord (header .increment 0) a.field 0 0
  | .decrement a => packWord (header .decrement 0) a.field 0 0
  | .moveReg dst src => packWord (header .move 0) dst.field src.field 0
  | .moveInt dst n => packWord (header .move 1) dst.field n 0
  | .moveText dst t => packWord (header .move 2) dst.field t 0
  | .load a addr => packWord (header .load 0) a.field addr 0
  | .push a => packWord (header .push 0) a.field 0 0
  | .pop a => packWord (header .pop 0) a.field 0 0
  | .call addr => packWord (header .call 0) addr 0 0
  | .ret => packWord (header .ret 0) 0 0 0
  | .jump addr => packWord (header .jump 0) addr 0 0
  | .jumpIfTrue addr => packWord (header .jumpIfTrue 0) addr 0 0
  | .testEquals a b => packWord (header .testEquals 0) a.field b.field 0
  | .echo a => packWord (header .echo 0) a.field 0 0
  | .iinput addr => packWord (header .iinput 0) addr 0 0
  | .halt => packWord (header .halt 0) 0 0 0

/-! ## The opcode table as data -/

/-- One row of spec/opcode_table.json: the words w with `w &&& mask = pattern`. -/
structure TableRow where
  /-- The row's "mnemonic". -/
  mnemonic : String
  /-- The row's "match". -/
  pattern : InstrWord
  /-- The row's "mask". -/
  mask : InstrWord
deriving DecidableEq, Repr

/-- The 18 rows of spec/opcode_table.json, copied from that file and not computed from the checks above. -/
def opcodeTable : List TableRow :=
  [ ⟨"Add", 0x00000000000000000000000000000001, 0x010000000100000001000000FFFFFFFF⟩,
    ⟨"Mul", 0x00000000000000000000000000000002, 0x010000000100000001000000FFFFFFFF⟩,
    ⟨"Increment", 0x00000000000000000000000000000003, 0xFFFFFFFFFFFFFFFF01000000FFFFFFFF⟩,
    ⟨"Decrement", 0x00000000000000000000000000000004, 0xFFFFFFFFFFFFFFFF01000000FFFFFFFF⟩,
    ⟨"Move", 0x00000000000000000000000000000005, 0xFFFFFFFF0000000000000000FFFFFFFF⟩,
    ⟨"Move", 0x00000000000000000000000000000105, 0xFFFFFFFF0000000000000000FFFFFFFF⟩,
    ⟨"Move", 0x00000000000000000000000000000205, 0xFFFFFFFF0000000000000000FFFFFFFF⟩,
    ⟨"Load", 0x00000000000000000000000000000006, 0xFFFFFFFF0000000001000000FFFFFFFF⟩,
    ⟨"Push", 0x00000000000000000000000000000007, 0xFFFFFFFFFFFFFFFF01000000FFFFFFFF⟩,
    ⟨"Pop", 0x00000000000000000000000000000008, 0xFFFFFFFFFFFFFFFF01000000FFFFFFFF⟩,
    ⟨"Call", 0x00000000000000000000000000000009, 0xFFFFFFFFFFFFFFFF00000000FFFFFFFF⟩,
    ⟨"Ret", 0x0000000000000000000000000000000A, 0xFFFFFFFFFFFFFFFFFFFFFFFFFFFFFFFF⟩,
    ⟨"Jump", 0x0000000000000000000000000000000B, 0xFFFFFFFFFFFFFFFF00000000FFFFFFFF⟩,
    ⟨"JumpIfTrue", 0x0000000000000000000000000000000C, 0xFFFFFFFFFFFFFFFF00000000FFFFFFFF⟩,
    ⟨"TestEquals", 0x0000000000000000000000000000000D, 0xFFFFFFFF0100000001000000FFFFFFFF⟩,
    ⟨"Echo", 0x0000000000000000000000000000000E, 0xFFFFFFFFFFFFFFFF00000000FFFFFFFF⟩,
    ⟨"Iinput", 0x0000000000000000000000000000000F, 0xFFFFFFFFFFFFFFFF00000000FFFFFFFF⟩,
    ⟨"Halt", 0x00000000000000000000000000000010, 0xFFFFFFFFFFFFFFFFFFFFFFFFFFFFFFFF⟩ ]

/-- A word belongs to a row of the table. -/
def TableRow.covers (r : TableRow) (w : InstrWord) : Bool := w &&& r.mask == r.pattern

/-- The number of an instruction's row in `opcodeTable`. -/
def Instr.row : Instr → Nat
  | .add _ _ _ => 0
  | .mul _ _ _ => 1
  | .increment _ => 2
  | .decrement _ => 3
  | .moveReg _ _ => 4
  | .moveInt _ _ => 5
  | .moveText _ _ => 6
  | .load _ _ => 7
  | .push _ => 8
  | .pop _ => 9
  | .call _ => 10
  | .ret => 11
  | .jump _ => 12
  | .jumpIfTrue _ => 13
  | .testEquals _ _ => 14
  | .echo _ => 15
  | .iinput _ => 16
  | .halt => 17

/-- An instruction word from its low `nbits` bits, every bit above them 0. -/
def tableWord (nbits w : Nat) : InstrWord := BitVec.ofNat 128 (w % 2 ^ nbits)

/-- The instruction the decoder reads from a row's bits, bit 0 the least significant bit of the word (R10, R79).
A word is one cell, so no byte order arises (R57). -/
def decodeTableWord (nbits w : Nat) : Option Instr :=
  match decode (tableWord nbits w) with
  | .ok i => some i
  | .error _ => none

/-! ## The cell format -/

/-- A value as a cell of 130 bits, TAG = cell[129:128] and PAYLOAD = cell[127:0] (R71, R72). -/
def Value.toCell : Value → BitVec 130
  | .empty => 0#2 ++ 0#128
  | .int n => 1#2 ++ (0#96 ++ n)
  | .text t => 2#2 ++ (0#96 ++ t)
  | .instr w => 3#2 ++ w

/-- TAG of a cell (R71). -/
def cellTag (c : BitVec 130) : BitVec 2 := c.extractLsb' 128 2

/-- PAYLOAD of a cell (R71). -/
def cellPayload (c : BitVec 130) : BitVec 128 := c.extractLsb' 0 128

/-- The value of a cell, `none` where its bits are not a Value: TAG 00, 01 or 10 with a zero bit of R72 set. -/
def Value.ofCell (c : BitVec 130) : Option Value :=
  let p := cellPayload c
  match cellTag c with
  | 0#2 => if p = 0#128 then some .empty else none
  | 1#2 => if p.extractLsb' 32 96 = 0#96 then some (.int (p.extractLsb' 0 32)) else none
  | 2#2 => if p.extractLsb' 32 96 = 0#96 then some (.text (p.extractLsb' 0 32)) else none
  | _ => some (.instr p)

end Sys2Proof
end

