-- ==== Sys2Proof/Config.lean ====
section
/-! DEFINITION. The implementation parameters of the core and their constraints (00_scope.md R8, R9). -/

namespace Sys2Proof

/-- The constraints of R8 on MEM_SIZE, REG_COUNT and SP_INDEX. -/
abbrev ConfigOk (memSize regCount spIndex : Nat) : Prop :=
  1 ≤ memSize ∧ memSize ≤ 2 ^ 31 - 32768 ∧ spIndex < regCount ∧ regCount ≤ 256

/-- A configuration of the core. One that violates R8 is not a machine (R9): it cannot be built, since the
structure carries the proof of its constraints. W and TEXT_WIDTH have one value each and are in `Word` and `Handle`. -/
structure Config where
  /-- MEM_SIZE, the N of the rules. -/
  memSize : Nat
  /-- REG_COUNT, the M of the rules. -/
  regCount : Nat
  /-- SP_INDEX, the number of the stack register. -/
  spIndex : Nat
  /-- The constraints of R8. -/
  ok : ConfigOk memSize regCount spIndex
deriving DecidableEq, Repr

/-- Construction of a configuration, refused (`none`) where R8 is violated (R9). -/
def Config.build? (memSize regCount spIndex : Nat) : Option Config :=
  if h : ConfigOk memSize regCount spIndex then some ⟨memSize, regCount, spIndex, h⟩ else none

/-- The reference configuration of R8: N = 256, M = 16, SP_INDEX = 15.
PRESUMED (the spec marks it as general knowledge, G2; unsafe for a claim about this one value; log entry 2). -/
def Config.reference : Config := ⟨256, 16, 15, by decide⟩

end Sys2Proof
end

