-- ==== Sys2Proof/Machine/State.lean ====
section
/-! DEFINITION. The state of the core, its reset value, and the reasons a step could stop (10_state.md R20 to R38,
70_reset_and_hazards.md R230, R231). -/

namespace Sys2Proof.Machine

/-- An array of cells as plain data: pairs of a cell's number and its value, in one canonical form (numbers strictly
rising, no entry `Value.empty`). A number that is not listed reads as `Value.empty`, the reset content of every cell
(R25, R55). DESIGN CHOICE: pairs of an address and a tagged value, since the core has no bytes (R57; safe; log entry 3). -/
abbrev Cells := List (Nat × Value)

/-- The memory array mem[0..N-1] (R50). -/
abbrev Memory := Cells

/-- The register file x[0..M-1], the stack register among them (R21, R22). -/
abbrev RegFile := Cells

/-- STATE, the state of the fetch-decode-execute machine (R33). -/
inductive Fsm where
  /-- After reset: the loader fills the machine. -/
  | load
  /-- Instructions run. -/
  | run
  /-- An Iinput waits for its response; the input request is outstanding. -/
  | waitIn
  /-- Terminal, success. -/
  | halted
  /-- Terminal, failure. -/
  | faulted
deriving DecidableEq, Repr

/-- The fault causes (60_exceptions.md R201). -/
inductive FaultCause where
  /-- NONE: no fault (reset value). -/
  | none
  /-- FETCH_RANGE: pc outside [0, N) at fetch. -/
  | fetchRange
  /-- FETCH_NOT_INSTR: the cell at pc holds no instruction. -/
  | fetchNotInstr
  /-- ILLEGAL_INSTR: the word fails a check of R84. -/
  | illegalInstr
  /-- REG_RANGE: a register index of M or more. -/
  | regRange
  /-- MEM_RANGE: a data address outside [0, N). -/
  | memRange
  /-- NOT_INTEGER: an operand that must be an integer is not. -/
  | notInteger
  /-- RET_NOT_INTEGER: the value popped by Ret is no integer. -/
  | retNotInteger
  /-- EMPTY_REG: a register read as an operand is Empty. -/
  | emptyReg
  /-- EMPTY_MEM: a cell read as data is Empty. -/
  | emptyMem
  /-- INPUT_EOS: the input source is exhausted. -/
  | inputEos
deriving DecidableEq, Repr

/-- The four responses of the input port (44_io.md R182). -/
inductive InResponse where
  /-- InInt(n): a line was read and parsed. -/
  | int (n : Word)
  /-- InParseFail: a line was read and is no integer of W bits. -/
  | parseFail
  /-- InReadError: a transient read failure. -/
  | readError
  /-- InEOS: the input source is permanently exhausted. -/
  | eos
deriving DecidableEq, Repr

/-- What the host does at one step of the machine (R101, R182, R230, R232, R233). -/
inductive HostEvent where
  /-- Nothing: the core is left alone for this step. -/
  | idle
  /-- Reset is asserted (R230). -/
  | reset
  /-- The command `start` (R101). -/
  | start
  /-- `load_mem(a, v)` (R232). -/
  | loadMem (a : Int) (v : Value)
  /-- `load_reg(i, v)` (R232). -/
  | loadReg (i : Int) (v : Value)
  /-- `load_flag(b)` (R232). -/
  | loadFlag (b : Bool)
  /-- A response to the outstanding input request (R182). -/
  | respond (r : InResponse)
deriving DecidableEq, Repr

/-- The whole state (R20, R231), with the parameters of R8 carried along and the events the host will bring. -/
structure State where
  /-- The parameters; no step changes them (DESIGN CHOICE, safe; log entry 1). -/
  cfg : Config
  /-- x[0..M-1] (R21). -/
  regs : RegFile
  /-- The program counter (R26). -/
  pc : Word
  /-- The condition flag (R31). -/
  flag : Bool
  /-- mem[0..N-1] (R50). -/
  mem : Memory
  /-- STATE (R33). -/
  fsm : Fsm
  /-- FAULT_CAUSE (R32). -/
  faultCause : FaultCause
  /-- FAULT_PC (R32). -/
  faultPc : Word
  /-- FAULT_INFO, W + 1 bits (R32). -/
  faultInfo : InfoWord
  /-- CUR_PC, the fetch address of the instruction in progress (R35). -/
  curPc : Word
  /-- IN_ADDR, the address of the Iinput in progress (R35). -/
  inAddr : Word
  /-- The values sent to the output port, the oldest first (R180, R231). -/
  output : List Value
  /-- The MODEL's own field: what the host does at the coming steps, one event a step; the empty list is a host that
  does nothing more (DESIGN CHOICE, safe for statements about every list; log entry 4). -/
  host : List HostEvent
deriving DecidableEq, Repr

/-- Reasons for a step to stop the model with a fault: there is none, and so no constructor. Every fault of the core is
a transition to FAULTED that the spec describes (R204), hence a next state (safe; log entry 8). -/
inductive Fault where
deriving DecidableEq, Repr

/-- Reasons for a step to refuse. -/
inductive Refusal where
  /-- Raised by `exec` for an instruction without a meaning; no arm raises it now. Safe: the machine stops. -/
  | notModelled (mnemonic : String)
deriving DecidableEq, Repr

/-- The machine right after reset, for a configuration and the host's coming events: the table of R231. -/
def State.resetOf (cfg : Config) (host : List HostEvent) : State :=
  { cfg := cfg
    regs := []
    pc := 0
    flag := false
    mem := []
    fsm := .load
    faultCause := .none
    faultPc := 0
    faultInfo := 0
    curPc := 0
    inAddr := 0
    output := []
    host := host }

/-- The machine right after reset in the reference configuration, with a host that does nothing
(PRESUMED configuration, log entry 2; DESIGN CHOICE for the host, log entry 4). -/
def State.reset : State := State.resetOf Config.reference []

end Sys2Proof.Machine
end

