-- ==== Sys2Proof/Machine/Ops.lean ====
section
/-! DEFINITION. The named operations over cells, registers and memory, the checked primitives of 00_scope.md R14, staged
writes and `raise` (R15), the one fault entry (60_exceptions.md R204), the stack primitives (R145) and reset (R230). -/

namespace Sys2Proof.Machine

/-! ## Cells -/

/-- The value of cell `a`; what is not listed is Empty (R25, R55). -/
def Cells.read : Cells → Nat → Value
  | [], _ => .empty
  | (b, v) :: rest, a => if b = a then v else Cells.read rest a

/-- The list without any entry for `a`. -/
def Cells.erase (c : Cells) (a : Nat) : Cells := c.filter (fun p => p.1 != a)

/-- An entry put in before the first one with a greater number. -/
def Cells.insert : Cells → Nat → Value → Cells
  | [], a, v => [(a, v)]
  | (b, u) :: rest, a, v => if a < b then (a, v) :: (b, u) :: rest else (b, u) :: Cells.insert rest a v

/-- Cell `a` set to `v` and no other cell changed (R59); setting Empty removes the entry, so the form stays canonical. -/
def Cells.write (c : Cells) (a : Nat) (v : Value) : Cells :=
  match v with
  | .empty => Cells.erase c a
  | .int n => Cells.insert (Cells.erase c a) a (.int n)
  | .text t => Cells.insert (Cells.erase c a) a (.text t)
  | .instr w => Cells.insert (Cells.erase c a) a (.instr w)

/-- Every number of the list is greater than `lo`, and the list is canonical. -/
def Cells.canonicalAbove : Nat → Cells → Bool
  | _, [] => true
  | lo, (b, v) :: rest => decide (lo < b) && (v != .empty) && Cells.canonicalAbove b rest

/-- The canonical form: numbers strictly rising, no entry Empty. -/
def Cells.canonical : Cells → Bool
  | [] => true
  | (b, v) :: rest => (v != .empty) && Cells.canonicalAbove b rest

/-- Every number of the list is below `n`. -/
def Cells.below (n : Nat) (c : Cells) : Bool := c.all (fun p => decide (p.1 < n))

/-- The memory is in its canonical form. -/
def Memory.wf (m : Memory) : Bool := Cells.canonical m

/-- The register file is in its canonical form. -/
def RegFile.wf (r : RegFile) : Bool := Cells.canonical r

/-! ## Raw reads and writes of a state (R13) -/

/-- x[i]. -/
def State.reg (s : State) (i : Nat) : Value := Cells.read s.regs i

/-- mem[a]. -/
def State.cell (s : State) (a : Nat) : Value := Cells.read s.mem a

/-- x[i] <- v. -/
def State.setReg (s : State) (i : Nat) (v : Value) : State := { s with regs := Cells.write s.regs i v }

/-- mem[a] <- v. -/
def State.setCell (s : State) (a : Nat) (v : Value) : State := { s with mem := Cells.write s.mem a v }

/-- pc <- t. -/
def State.setPc (s : State) (t : Word) : State := { s with pc := t }

/-- flag <- b. -/
def State.setFlag (s : State) (b : Bool) : State := { s with flag := b }

/-- STATE <- f. -/
def State.setFsm (s : State) (f : Fsm) : State := { s with fsm := f }

/-- CUR_PC <- t. -/
def State.setCurPc (s : State) (t : Word) : State := { s with curPc := t }

/-- IN_ADDR <- t. -/
def State.setInAddr (s : State) (t : Word) : State := { s with inAddr := t }

/-- One output event carrying `v` (R180). -/
def State.emit (s : State) (v : Value) : State := { s with output := s.output ++ [v] }

/-- The host's coming events. -/
def State.setHost (s : State) (h : List HostEvent) : State := { s with host := h }

/-! ## The memory subsystem's requests (R56) -/

/-- An address is in [0, N) (R53, R58). -/
def State.inMem (s : State) (a : Int) : Bool := decide (0 ≤ a ∧ a < (s.cfg.memSize : Int))

/-- A read request: the cell's value, or `none` for a range error. -/
def State.portRead (s : State) (a : Int) : Option Value :=
  if s.inMem a then some (s.cell a.toNat) else none

/-- A write request: done, or `none` for a range error, which leaves the array unchanged. -/
def State.portWrite (s : State) (a : Int) (v : Value) : Option State :=
  if s.inMem a then some (s.setCell a.toNat v) else none

/-! ## Faults (R15, R204) -/

/-- `raise Fault(cause, info)` (R15). -/
structure Raise where
  /-- The cause code. -/
  cause : FaultCause
  /-- The offending index or address, exact. -/
  info : Int
deriving DecidableEq, Repr

/-- A computation that ends in a value or raises a fault. Writes are staged: they stand in the state that a computation
carries forward, which a raise drops (R15). -/
abbrev Checked (α : Type) := Except Raise α

/-- `enter FAULTED(cause, info)`, the only trap entry: nothing but these four registers changes (R204). There is no trap
return (R205). FAULT_INFO keeps W + 1 bits, enough for every info that occurs (DEDUCED, safe; log entry 10). -/
def enterFaulted (s : State) (r : Raise) : State :=
  { s with fsm := .faulted, faultCause := r.cause, faultPc := s.curPc, faultInfo := BitVec.ofInt 33 r.info }

/-- The end of an instruction started in `s`: its staged writes are committed together, or none of them is and the core
enters FAULTED (R15, R108, R110). -/
def commit (s : State) (r : Checked State) : Host.Outcome State Fault Refusal :=
  match r with
  | .ok t => .next t
  | .error e => .next (enterFaulted s e)

/-! ## Checked primitives (R14) -/

/-- `RegRead(i)`. -/
def regRead (s : State) (i : Nat) : Checked Value :=
  if s.cfg.regCount ≤ i then .error ⟨.regRange, i⟩
  else if s.reg i = .empty then .error ⟨.emptyReg, i⟩
  else .ok (s.reg i)

/-- `RegWrite(i, v)`. -/
def regWrite (s : State) (i : Nat) (v : Value) : Checked State :=
  if s.cfg.regCount ≤ i then .error ⟨.regRange, i⟩ else .ok (s.setReg i v)

/-- `MemRead(a, 1)`. -/
def memRead (s : State) (a : Int) : Checked Value :=
  match s.portRead a with
  | none => .error ⟨.memRange, a⟩
  | some v => if v = .empty then .error ⟨.emptyMem, a⟩ else .ok v

/-- `MemWrite(a, 1, v)`. -/
def memWrite (s : State) (a : Int) (v : Value) : Checked State :=
  match s.portWrite a v with
  | none => .error ⟨.memRange, a⟩
  | some t => .ok t

/-- `ExpectInt(v, cause, info)`. -/
def expectInt (v : Value) (cause : FaultCause) (info : Int) : Checked Word :=
  match v with
  | .int n => .ok n
  | .empty => .error ⟨cause, info⟩
  | .text _ => .error ⟨cause, info⟩
  | .instr _ => .error ⟨cause, info⟩

/-- `wrap_W(n)`: the W-bit integer congruent to n modulo 2^W (R11). -/
def wrapW (n : Int) : Word := BitVec.ofInt 32 n

/-! ## The stack (R144, R145) -/

/-- The stack address: `ExpectInt(RegRead(SP_INDEX), NOT_INTEGER, SP_INDEX)` (R145). -/
def stackAddress (s : State) : Checked Word := do
  let v ← regRead s s.cfg.spIndex
  expectInt v .notInteger s.cfg.spIndex

/-- `PushVal(v)`: store at sp, then sp <- sp - 1 (R145). -/
def pushVal (s : State) (v : Value) : Checked State := do
  let sp ← stackAddress s
  let s ← memWrite s sp.toInt v
  regWrite s s.cfg.spIndex (.int (wrapW (sp.toInt - 1)))

/-- `PopVal()`: the value at sp + 1, and the state with sp <- sp + 1 staged (R145). -/
def popVal (s : State) : Checked (Value × State) := do
  let sp ← stackAddress s
  let v ← memRead s (sp.toInt + 1)
  let s ← regWrite s s.cfg.spIndex (.int (wrapW (sp.toInt + 1)))
  pure (v, s)

/-! ## Reset (R230, R231) -/

/-- Reset from any state: every piece of state at its reset value, the core in LOAD. The parameters and what the host
does after the reset stay (DEDUCED, safe; log entry 16). -/
def resetCore (s : State) : State := State.resetOf s.cfg s.host

end Sys2Proof.Machine
end

