-- ==== Sys2Proof/Machine/Flags.lean ====
section
/-! DEFINITION. The combinational functions of the ALU (41_alu.md R120, R121) and the computations of the one condition
flag (R31): the comparator of TestEquals (R127) and the flag of an input response (R183). -/

namespace Sys2Proof.Machine

/-- `add(a, b) = wrap_W(a + b)` (R120). -/
def aluAdd (a b : Word) : Word := wrapW (a.toInt + b.toInt)

/-- `mul(a, b) = wrap_W(a * b)` (R120). -/
def aluMul (a b : Word) : Word := wrapW (a.toInt * b.toInt)

/-- `inc(a) = wrap_W(a + 1)` (R120). -/
def aluInc (a : Word) : Word := wrapW (a.toInt + 1)

/-- `dec(a) = wrap_W(a - 1)` (R120). -/
def aluDec (a : Word) : Word := wrapW (a.toInt - 1)

/-- `ValueEq(v1, v2)`: equality of two values of one variant, false for two variants (R127). Two instructions are equal
when their 128 bits are (the spec's decision D15; its alternative parameter is not taken: log entry 14). -/
def valueEq (v1 v2 : Value) : Bool :=
  match v1, v2 with
  | .int a, .int b => a == b
  | .text a, .text b => a == b
  | .instr a, .instr b => a == b
  | .empty, _ => false
  | .int _, .empty => false
  | .int _, .text _ => false
  | .int _, .instr _ => false
  | .text _, .empty => false
  | .text _, .int _ => false
  | .text _, .instr _ => false
  | .instr _, .empty => false
  | .instr _, .int _ => false
  | .instr _, .text _ => false

end Sys2Proof.Machine
end

