-- ==== Sys2Proof/Machine/Operands.lean ====
section
/-! DEFINITION. The operand forms of the instructions (30_encoding.md R75, R76, R81 to R83; 42_data_movement.md R140,
R141). -/

namespace Sys2Proof.Machine

/-- The register a descriptor names, zero-extended (R74). -/
def regIndex (d : Descriptor) : Nat := d.idx.toNat

/-- An operand of kind D that must hold an integer:
`ExpectInt(RegRead(idx(d)), NOT_INTEGER, idx(d))` (R122). -/
def intOperand (s : State) (d : Descriptor) : Checked Word := do
  let v ← regRead s (regIndex d)
  expectInt v .notInteger (regIndex d)

/-- `EA(d)`, the effective address of an indirect descriptor: the exact sum of base and offset, no wrap (R75). -/
def effectiveAddress (s : State) (d : Descriptor) : Checked Int := do
  let b ← intOperand s d
  pure (b.toInt + d.off.toInt)

/-- `Resolve(d)`, a register operand as a source (R76). -/
def resolve (s : State) (d : Descriptor) : Checked Value :=
  if d.ind then do
    let a ← effectiveAddress s d
    memRead s a
  else regRead s (regIndex d)

/-- A register operand as the destination of Move: the cell at its effective address, or the register (R142). -/
def storeOperand (s : State) (d : Descriptor) (v : Value) : Checked State :=
  if d.ind then do
    let a ← effectiveAddress s d
    memWrite s a v
  else regWrite s (regIndex d) v

/-- An integer literal as a memory address, unscaled (R81, R83). -/
def literalAddress (w : Word) : Int := w.toInt

end Sys2Proof.Machine
end

