-- ==== Sys2Proof/Machine/Alu.lean ====
section
/-! DEFINITION. The ALU instructions: Add, Mul, Increment, Decrement, TestEquals (41_alu.md). pc was advanced to f + 1 by
the fetch and these instructions leave it there. -/

namespace Sys2Proof.Machine

/-- A three-register operation: both sources are read, B before C, before the destination A is written (R123, R124). -/
def binaryOp (f : Word → Word → Word) (a b c : Descriptor) (s : State) : Checked State := do
  let x ← intOperand s b
  let y ← intOperand s c
  regWrite s (regIndex a) (.int (f x y))

/-- A one-register operation (R125, R126). -/
def unaryOp (f : Word → Word) (a : Descriptor) (s : State) : Checked State := do
  let x ← intOperand s a
  regWrite s (regIndex a) (.int (f x))

/-- Add (R123). -/
def execAdd (a b c : Descriptor) (s : State) : Host.Outcome State Fault Refusal := commit s (binaryOp aluAdd a b c s)

/-- Mul (R124). -/
def execMul (a b c : Descriptor) (s : State) : Host.Outcome State Fault Refusal := commit s (binaryOp aluMul a b c s)

/-- Increment (R125). -/
def execIncrement (a : Descriptor) (s : State) : Host.Outcome State Fault Refusal := commit s (unaryOp aluInc a s)

/-- Decrement (R126). -/
def execDecrement (a : Descriptor) (s : State) : Host.Outcome State Fault Refusal := commit s (unaryOp aluDec a s)

/-- The flag of TestEquals from its two registers, A read before B (R128). -/
def testEqualsOp (a b : Descriptor) (s : State) : Checked State := do
  let v1 ← regRead s (regIndex a)
  let v2 ← regRead s (regIndex b)
  pure (s.setFlag (valueEq v1 v2))

/-- TestEquals (R128). -/
def execTestEquals (a b : Descriptor) (s : State) : Host.Outcome State Fault Refusal := commit s (testEqualsOp a b s)

end Sys2Proof.Machine
end

