-- ==== Sys2Proof/Machine/Control.lean ====
section
/-! DEFINITION. The control-transfer instructions: Call, Ret, Jump, JumpIfTrue, Halt (43_control_transfer.md). When one
starts, pc is f + 1 (R105); targets are absolute and not range-checked here (R160). -/

namespace Sys2Proof.Machine

/-- The call: the return address pc = f + 1 is pushed, then pc <- the target (R161). -/
def callOp (addr : Word) (s : State) : Checked State := do
  let t ← pushVal s (.int s.pc)
  pure (t.setPc addr)

/-- Call (R161). -/
def execCall (addr : Word) (s : State) : Host.Outcome State Fault Refusal := commit s (callOp addr s)

/-- The return: the popped value is checked before sp and pc are written (R162). -/
def retOp (s : State) : Checked State := do
  let sp ← stackAddress s
  let v ← memRead s (sp.toInt + 1)
  let r ← expectInt v .retNotInteger (sp.toInt + 1)
  let t ← regWrite s s.cfg.spIndex (.int (wrapW (sp.toInt + 1)))
  pure (t.setPc r)

/-- Ret (R162). -/
def execRet (s : State) : Host.Outcome State Fault Refusal := commit s (retOp s)

/-- Jump (R163). -/
def execJump (addr : Word) (s : State) : Host.Outcome State Fault Refusal := commit s (.ok (s.setPc addr))

/-- JumpIfTrue: the flag is read and not written (R164). -/
def execJumpIfTrue (addr : Word) (s : State) : Host.Outcome State Fault Refusal :=
  commit s (.ok (if s.flag then s.setPc addr else s))

/-- Halt: STATE <- HALTED and no other change (R109, R165). -/
def execHalt (s : State) : Host.Outcome State Fault Refusal := commit s (.ok (s.setFsm .halted))

end Sys2Proof.Machine
end

