-- ==== Sys2Proof/Machine/DataMovement.lean ====
section
/-! DEFINITION. The data-movement and stack instructions: Move, Load, Push, Pop (42_data_movement.md). -/

namespace Sys2Proof.Machine

/-- Move with a register source, K = 00: `MoveSource` is `Resolve(B)` (R141, R142). -/
def moveRegOp (dst src : Descriptor) (s : State) : Checked State := do
  let v ← resolve s src
  storeOperand s dst v

/-- Move with a register source (R142). -/
def execMoveReg (dst src : Descriptor) (s : State) : Host.Outcome State Fault Refusal :=
  commit s (moveRegOp dst src s)

/-- Move with an integer literal, K = 01: the value is `Int(sext_32(B))` (R141, R142). -/
def execMoveInt (dst : Descriptor) (n : Word) (s : State) : Host.Outcome State Fault Refusal :=
  commit s (storeOperand s dst (.int n))

/-- Move with a text literal, K = 10: the value is `Text(B)` (R141, R142). -/
def execMoveText (dst : Descriptor) (t : Handle) (s : State) : Host.Outcome State Fault Refusal :=
  commit s (storeOperand s dst (.text t))

/-- The load of a register from a literal address (R143). -/
def loadOp (a : Descriptor) (addr : Word) (s : State) : Checked State := do
  let v ← memRead s (literalAddress addr)
  regWrite s (regIndex a) v

/-- Load (R143). -/
def execLoad (a : Descriptor) (addr : Word) (s : State) : Host.Outcome State Fault Refusal :=
  commit s (loadOp a addr s)

/-- The push of a register: its value is read before the stack is touched (R146). -/
def pushOp (a : Descriptor) (s : State) : Checked State := do
  let v ← regRead s (regIndex a)
  pushVal s v

/-- Push (R146). -/
def execPush (a : Descriptor) (s : State) : Host.Outcome State Fault Refusal := commit s (pushOp a s)

/-- The pop into a register: written after sp, so it wins where the register is sp (R147). -/
def popOp (a : Descriptor) (s : State) : Checked State := do
  let (v, t) ← popVal s
  regWrite t (regIndex a) v

/-- Pop (R147). -/
def execPop (a : Descriptor) (s : State) : Host.Outcome State Fault Refusal := commit s (popOp a s)

end Sys2Proof.Machine
end

