-- ==== Sys2Proof/Machine/Io.lean ====
section
/-! DEFINITION. The input and output instructions: Echo, Iinput and its completion (44_io.md). -/

namespace Sys2Proof.Machine

/-- The value of an Echo is resolved before it is sent, so a faulting Echo sends nothing (R181). -/
def echoOp (a : Descriptor) (s : State) : Checked State := do
  let v ← resolve s a
  pure (s.emit v)

/-- Echo (R181). -/
def execEcho (a : Descriptor) (s : State) : Host.Outcome State Fault Refusal := commit s (echoOp a s)

/-- Iinput, its step in RUN: latch IN_ADDR, send the input request and wait (R111, R183). The outstanding request is
STATE = WAIT_IN (DEDUCED from R37, safe; log entry 9). -/
def execIinput (addr : Word) (s : State) : Host.Outcome State Fault Refusal :=
  commit s (.ok ((s.setInAddr addr).setFsm .waitIn))

/-- The effect of a response on the waiting Iinput (R183). -/
def inputOp (r : InResponse) (s : State) : Checked State :=
  match r with
  | .int n => do
    let t ← memWrite s (literalAddress s.inAddr) (.int n)
    pure ((t.setFlag true).setFsm .run)
  | .parseFail => .ok ((s.setFlag false).setFsm .run)
  | .readError => .ok ((s.setFlag false).setFsm .run)
  | .eos => .error ⟨.inputEos, 0⟩

/-- `IinputComplete(resp)`, its step in WAIT_IN; a fault has FAULT_PC = CUR_PC, the Iinput's fetch address (R183). -/
def iinputComplete (r : InResponse) (s : State) : State :=
  match inputOp r s with
  | .ok t => t
  | .error e => enterFaulted s e

end Sys2Proof.Machine
end

