-- ==== Sys2Proof/Machine/Dispatch.lean ====
section
/-! DEFINITION. The dispatcher: exactly one execute routine for each instruction (40_execution_unit.md R107). -/

namespace Sys2Proof.Machine

def exec (i : Instr) (s : State) : Host.Outcome State Fault Refusal :=
  match i with
  | .add a b c => Sys2Proof.Machine.execAdd a b c s
  | .mul a b c => Sys2Proof.Machine.execMul a b c s
  | .increment a => Sys2Proof.Machine.execIncrement a s
  | .decrement a => Sys2Proof.Machine.execDecrement a s
  | .moveReg dst src => Sys2Proof.Machine.execMoveReg dst src s
  | .moveInt dst n => Sys2Proof.Machine.execMoveInt dst n s
  | .moveText dst t => Sys2Proof.Machine.execMoveText dst t s
  | .load a addr => Sys2Proof.Machine.execLoad a addr s
  | .push a => Sys2Proof.Machine.execPush a s
  | .pop a => Sys2Proof.Machine.execPop a s
  | .call addr => Sys2Proof.Machine.execCall addr s
  | .ret => Sys2Proof.Machine.execRet s
  | .jump addr => Sys2Proof.Machine.execJump addr s
  | .jumpIfTrue addr => Sys2Proof.Machine.execJumpIfTrue addr s
  | .testEquals a b => Sys2Proof.Machine.execTestEquals a b s
  | .echo a => Sys2Proof.Machine.execEcho a s
  | .iinput addr => Sys2Proof.Machine.execIinput addr s
  | .halt => Sys2Proof.Machine.execHalt s

end Sys2Proof.Machine
end

