-- ==== Sys2Proof/Machine/Fetch.lean ====
section
/-! DEFINITION. The fetch of one instruction (40_execution_unit.md R102 to R105). -/

namespace Sys2Proof.Machine

/-- CUR_PC <- pc, at the start of every fetch, a faulting one too (R102, R35). -/
def latchPc (s : State) : State := s.setCurPc s.pc

/-- The instruction word at pc: a raw read without the Empty check, FETCH_RANGE outside [0, N) and FETCH_NOT_INSTR
where the cell holds no instruction, both with info pc (R103, R104). -/
def fetchWord (s : State) : Checked InstrWord :=
  match s.portRead s.pc.toInt with
  | none => .error ⟨.fetchRange, s.pc.toInt⟩
  | some .empty => .error ⟨.fetchNotInstr, s.pc.toInt⟩
  | some (.int _) => .error ⟨.fetchNotInstr, s.pc.toInt⟩
  | some (.text _) => .error ⟨.fetchNotInstr, s.pc.toInt⟩
  | some (.instr w) => .ok w

/-- pc <- f + 1, after a successful fetch and before the instruction executes (R105). -/
def advancePc (s : State) : State := s.setPc (s.pc + 1)

/-- A fetch at this pc is in range. -/
def canFetch (s : State) : Bool := s.inMem s.pc.toInt

end Sys2Proof.Machine
end

