-- ==== Sys2Proof/Machine/HostPort.lean ====
section
/-! DEFINITION. The core's side of the host interface: loader, start and reset (70_reset_and_hazards.md R230 to R233),
the input response (44_io.md R182), status (R234) and read-back (R235). -/

namespace Sys2Proof.Machine

/-- A host event's effect on the core, `none` where the present state does not accept it: a load outside LOAD or out of
range, a `start` outside LOAD, a response that nothing waits for, or `idle` (R101, R182, R232, U16). `start` leaves pc 0,
the value nothing in LOAD can change (R101; DEDUCED that it is also written, safe; log entry 12). -/
def hostAct (e : HostEvent) (s : State) : Option State :=
  match e with
  | .idle => none
  | .reset => some (resetCore s)
  | .start => if s.fsm = .load then some ((s.setPc 0).setFsm .run) else none
  | .loadMem a v => if s.fsm = .load then s.portWrite a v else none
  | .loadReg i v =>
    if s.fsm = .load ∧ 0 ≤ i ∧ i < (s.cfg.regCount : Int) then some (s.setReg i.toNat v) else none
  | .loadFlag b => if s.fsm = .load then some (s.setFlag b) else none
  | .respond r => if s.fsm = .waitIn then some (iinputComplete r s) else none

/-! ## Status (R32 to R34, R201, R234) -/

/-- The code of STATE, 5 to 7 never occurring (R33). -/
def Fsm.code : Fsm → BitVec 3
  | .load => 0
  | .run => 1
  | .waitIn => 2
  | .halted => 3
  | .faulted => 4

/-- The code of FAULT_CAUSE, 11 to 15 never occurring (R201). -/
def FaultCause.code : FaultCause → BitVec 4
  | .none => 0
  | .fetchRange => 1
  | .fetchNotInstr => 2
  | .illegalInstr => 3
  | .regRange => 4
  | .memRange => 5
  | .notInteger => 6
  | .retNotInteger => 7
  | .emptyReg => 8
  | .emptyMem => 9
  | .inputEos => 10

/-- STATE as the host reads it, in every state (R234). -/
def State.statusState (s : State) : BitVec 3 := s.fsm.code

/-- FAULT_CAUSE as the host reads it, in every state (R234). -/
def State.statusCause (s : State) : BitVec 4 := s.faultCause.code

/-- The run result: true when HALTED, false when FAULTED, no value while the run has not ended (R34; DEDUCED that
"undefined" is no value, safe; log entry 11). -/
def State.runResult (s : State) : Option Bool :=
  match s.fsm with
  | .halted => some true
  | .faulted => some false
  | .load => none
  | .run => none
  | .waitIn => none

/-- An input request is outstanding (R182; DEDUCED from R37, safe; log entry 9). -/
def State.requestOutstanding (s : State) : Bool := s.fsm == .waitIn

/-! ## Read-back (R235) -/

/-- The host may access registers and memory: not while STATE is RUN or WAIT_IN (R235). -/
def State.readable (s : State) : Bool :=
  match s.fsm with
  | .load => true
  | .halted => true
  | .faulted => true
  | .run => false
  | .waitIn => false

/-- Read-back of a register. -/
def State.hostReadReg (s : State) (i : Nat) : Option Value :=
  if s.readable ∧ i < s.cfg.regCount then some (s.reg i) else none

/-- Read-back of a memory cell. -/
def State.hostReadMem (s : State) (a : Int) : Option Value := if s.readable then s.portRead a else none

/-- Read-back of pc. -/
def State.hostReadPc (s : State) : Option Word := if s.readable then some s.pc else none

/-- Read-back of the flag. -/
def State.hostReadFlag (s : State) : Option Bool := if s.readable then some s.flag else none

end Sys2Proof.Machine
end

