-- ==== Sys2Proof/Machine/Cycle.lean ====
section
/-! DEFINITION. The fetch-decode-execute machine (40_execution_unit.md R100 to R113) and its cycle with the host. -/

namespace Sys2Proof.Machine

/-- `Step()` of R102, in RUN: latch CUR_PC, fetch, advance pc, check and decode, execute. A word that does not decode
faults ILLEGAL_INSTR with info 0 before any operand is read (R106). -/
def runInstr (s : State) : Host.Outcome State Fault Refusal :=
  match fetchWord (latchPc s) with
  | .error r => .next (enterFaulted (latchPc s) r)
  | .ok w =>
    match decode w with
    | .error _ => .next (enterFaulted (advancePc (latchPc s)) ⟨.illegalInstr, 0⟩)
    | .ok i => exec i (advancePc (latchPc s))

/-- What the core does by itself: an instruction in RUN, nothing in every other state. LOAD executes nothing (R101),
WAIT_IN waits for the host (R111, R184), HALTED and FAULTED are terminal (R113). A step that does nothing answers the
same state (DESIGN CHOICE, safe; log entry 7). -/
def coreStep (s : State) : Host.Outcome State Fault Refusal :=
  match s.fsm with
  | .run => runInstr s
  | .load => .next s
  | .waitIn => .next s
  | .halted => .next s
  | .faulted => .next s

/-- One step of core and host: the host's next event is taken from the list. An accepted event is the step; one that the
present state does not accept changes nothing, and the core goes on by itself (U16; DESIGN CHOICE; log entries 4, 5). -/
def cycle (s : State) : Host.Outcome State Fault Refusal :=
  match s.host with
  | [] => coreStep s
  | e :: rest =>
    match hostAct e (s.setHost rest) with
    | some t => .next t
    | none => coreStep (s.setHost rest)

/-- A state that can fetch: pc as it is where a fetch there is in range, else 0, the reset vector. -/
def placeFetch (s : State) : State := if canFetch s then s else s.setPc 0

/-- The word stored in the cell the next fetch reads, the core in RUN, and the host idle for the next step. -/
def placeWord (s : State) (w : InstrWord) : State :=
  let t := placeFetch s
  ((t.setCell t.pc.toInt.toNat (.instr w)).setFsm .run).setHost (.idle :: t.host)

end Sys2Proof.Machine
end

