-- ==== Sys2Proof/Machine/Step.lean ====
section
/-! DEFINITION. The step of the machine and the placing of one instruction where it fetches next. -/

namespace Sys2Proof.Machine

/-- One step: one instruction, one completion of an Iinput, one host event, or nothing (R102, R239). -/
def step (s : State) : Host.Outcome State Fault Refusal := cycle s

/-- `s` with the instruction word of the low `nbits` bits of `w` in the cell that the next step fetches from. The core is
put in RUN and the next host event is `idle`, so that the very next step runs it; after it the host's events are those of
`s` (log entry 6). -/
def State.withFetchWord (s : State) (nbits w : Nat) : State := placeWord s (tableWord nbits w)

end Sys2Proof.Machine
end

