-- ==== Sys2Proof/Safety.lean ====
section
/-! DEFINITION. What a safe run is, the invariant of the machine, runs under fuel, and the vocabulary the statements are
written in: what an operand holds, how an operand faults, and what an instruction may write. -/

namespace Sys2Proof.Machine

/-! ## Runs -/

/-- `t` follows from `s` by some number of steps. -/
inductive Reaches : State → State → Prop where
  | here (s : State) : Reaches s s
  | next (s t u : State) : Reaches s t → step t = .next u → Reaches s u

/-- A run has ended (R115). -/
abbrev State.ended (s : State) : Prop := s.fsm = .halted ∨ s.fsm = .faulted

/-- A run is safe so far: the core has not faulted. -/
abbrev State.safe (s : State) : Prop := s.fsm ≠ .faulted

/-- What a run under a bound of steps reports; "out of fuel" is apart from HALTED and FAULTED (R112). The bound is a device
of the model and no state of the core (U9, log entry 17). -/
inductive RunReport where
  /-- The run ended in HALTED. -/
  | halted (s : State)
  /-- The run ended in FAULTED. -/
  | faulted (s : State)
  /-- The bound was reached before the run ended. -/
  | outOfFuel (s : State)
  /-- The model stopped; no step does. -/
  | stopped
deriving DecidableEq, Repr

/-- The report on a run that has come to `s` and goes no further. -/
def report (s : State) : RunReport :=
  match s.fsm with
  | .halted => .halted s
  | .faulted => .faulted s
  | .load => .outOfFuel s
  | .run => .outOfFuel s
  | .waitIn => .outOfFuel s

/-- A run of at most `fuel` steps, ended by HALTED or FAULTED. -/
def runFuel : Nat → State → RunReport
  | 0, s => report s
  | n + 1, s =>
    if s.ended then report s
    else
      match step s with
      | .next t => runFuel n t
      | .fault _ => .stopped
      | .refused _ => .stopped

/-! ## The invariant -/

/-- pc is the fetch address plus 1, and the fetch address is in memory, so that the sum did not wrap (R27, R29). -/
abbrev State.pcFollows (s : State) : Prop :=
  s.pc.toInt = s.curPc.toInt + 1 ∧ 0 ≤ s.curPc.toInt ∧ s.curPc.toInt < (s.cfg.memSize : Int)

/-- The fault was raised by the fetch. -/
abbrev State.fetchFault (s : State) : Prop := s.faultCause = .fetchRange ∨ s.faultCause = .fetchNotInstr

/-- What holds of the machine after reset and after every step. -/
structure MachineInv (s : State) : Prop where
  /-- The registers are in canonical form. -/
  regsCanonical : RegFile.wf s.regs = true
  /-- No register outside [0, M) is stored. -/
  regsBelow : Cells.below s.cfg.regCount s.regs = true
  /-- The memory is in canonical form. -/
  memCanonical : Memory.wf s.mem = true
  /-- No cell outside [0, N) is stored. -/
  memBelow : Cells.below s.cfg.memSize s.mem = true
  /-- Empty is never output (R180). -/
  outputFilled : ∀ v ∈ s.output, v ≠ .empty
  /-- The fault record is written only on entry to FAULTED (R32). -/
  recordClear : s.safe → s.faultCause = .none ∧ s.faultPc = 0 ∧ s.faultInfo = 0
  /-- In FAULTED the record names a cause and the fetch address (R204). -/
  recordSet : s.fsm = .faulted → s.faultCause ≠ .none ∧ s.faultPc = s.curPc
  /-- A fetch fault leaves pc at the fetch address, its info too (R103, R104, R204). -/
  fetchFaultPc : s.fsm = .faulted → s.fetchFault → s.pc = s.curPc ∧ s.faultInfo.toInt = s.pc.toInt
  /-- Every later fault leaves pc at the fetch address plus 1 (R105, R204). -/
  laterFaultPc : s.fsm = .faulted → ¬ s.fetchFault → s.pcFollows
  /-- In LOAD what the loader cannot write has its reset value (R101, R231, R232). -/
  loadFresh : s.fsm = .load → s.pc = 0 ∧ s.curPc = 0 ∧ s.inAddr = 0 ∧ s.output = []
  /-- While an Iinput waits, pc is its fetch address plus 1 (R183). -/
  waitPc : s.fsm = .waitIn → s.pcFollows
  /-- After Halt, pc is its fetch address plus 1 (R109). -/
  haltPc : s.fsm = .halted → s.pcFollows

/-! ## What operands hold -/

/-- Register `i` exists and holds the value `v`, not Empty. -/
abbrev Holds (s : State) (i : Nat) (v : Value) : Prop := i < s.cfg.regCount ∧ s.reg i = v ∧ v ≠ .empty

/-- Register `i` exists and holds the integer `n`. -/
abbrev HoldsInt (s : State) (i : Nat) (n : Word) : Prop := i < s.cfg.regCount ∧ s.reg i = .int n

/-- Address `a` exists and its cell holds the value `v`, not Empty. -/
abbrev CellHolds (s : State) (a : Int) (v : Value) : Prop :=
  0 ≤ a ∧ a < (s.cfg.memSize : Int) ∧ s.cell a.toNat = v ∧ v ≠ .empty

/-- The effective address of an indirect descriptor is `a`: its base register holds an integer and `a` is the exact sum
(R75). -/
abbrev Points (s : State) (d : Descriptor) (a : Int) : Prop :=
  ∃ b, HoldsInt s d.idx.toNat b ∧ a = b.toInt + d.off.toInt

/-- The register operand `d`, direct or indirect, resolves to `v` (R76). -/
abbrev SourceHolds (s : State) (d : Descriptor) (v : Value) : Prop :=
  (d.ind = false ∧ Holds s d.idx.toNat v) ∨ (d.ind = true ∧ ∃ a, Points s d a ∧ CellHolds s a v)

/-! ## How operands fault -/

/-- Reading register `i` faults with `c`: REG_RANGE, then EMPTY_REG (R14). -/
abbrev ReadFault (s : State) (i : Nat) (c : FaultCause) : Prop :=
  (s.cfg.regCount ≤ i ∧ c = .regRange) ∨ (i < s.cfg.regCount ∧ s.reg i = .empty ∧ c = .emptyReg)

/-- Reading an integer from register `i` faults with `c`: REG_RANGE, EMPTY_REG, then NOT_INTEGER (R122). -/
abbrev IntFault (s : State) (i : Nat) (c : FaultCause) : Prop :=
  ReadFault s i c ∨
    (i < s.cfg.regCount ∧ s.reg i ≠ .empty ∧ (s.reg i).isInt = false ∧ c = .notInteger)

/-- Address `a` is outside [0, N). -/
abbrev OutOfMem (s : State) (a : Int) : Prop := a < 0 ∨ (s.cfg.memSize : Int) ≤ a

/-- Reading cell `a` faults with `c`: MEM_RANGE, then EMPTY_MEM (R14). -/
abbrev CellFault (s : State) (a : Int) (c : FaultCause) : Prop :=
  (OutOfMem s a ∧ c = .memRange) ∨
    (0 ≤ a ∧ a < (s.cfg.memSize : Int) ∧ s.cell a.toNat = .empty ∧ c = .emptyMem)

/-- The register operand `d` as a source faults with cause `c` and info `n`: a direct one as its register does; an
indirect one as its base does, then as its cell does (R76, R203). -/
abbrev SourceFault (s : State) (d : Descriptor) (c : FaultCause) (n : Int) : Prop :=
  (d.ind = false ∧ ReadFault s d.idx.toNat c ∧ n = d.idx.toNat) ∨
    (d.ind = true ∧ IntFault s d.idx.toNat c ∧ n = d.idx.toNat) ∨
    (d.ind = true ∧ Points s d n ∧ CellFault s n c)

/-! ## What an instruction does -/

/-- Instruction `i` in `s` enters FAULTED with this cause and exactly this info, FAULT_PC = CUR_PC, and changes nothing
else (R15, R204). -/
def FaultsWith (i : Instr) (s : State) (c : FaultCause) (n : Int) : Prop :=
  ∃ t, exec i s = .next t ∧ t.faultInfo.toInt = n ∧
    t = { s with fsm := .faulted, faultCause := c, faultPc := s.curPc, faultInfo := t.faultInfo }

/-- Instruction `i` in `s` sets register `r` to `v` and changes nothing else. -/
def SetsReg (i : Instr) (s : State) (r : Nat) (v : Value) : Prop :=
  ∃ t, exec i s = .next t ∧ t = { s with regs := t.regs } ∧ t.reg r = v ∧ ∀ q, q ≠ r → t.reg q = s.reg q

/-- Instruction `i` in `s` sets cell `a` to `v` and changes nothing else. -/
def SetsCell (i : Instr) (s : State) (a : Int) (v : Value) : Prop :=
  ∃ t, exec i s = .next t ∧ t = { s with mem := t.mem } ∧ t.cell a.toNat = v ∧
    ∀ b, b ≠ a.toNat → t.cell b = s.cell b

/-- The registers an instruction may write (the table of R23). -/
def WritesReg (cfg : Config) (i : Instr) (r : Nat) : Prop :=
  match i with
  | .add a _ _ => r = a.idx.toNat
  | .mul a _ _ => r = a.idx.toNat
  | .increment a => r = a.idx.toNat
  | .decrement a => r = a.idx.toNat
  | .moveReg dst _ => dst.ind = false ∧ r = dst.idx.toNat
  | .moveInt dst _ => dst.ind = false ∧ r = dst.idx.toNat
  | .moveText dst _ => dst.ind = false ∧ r = dst.idx.toNat
  | .load a _ => r = a.idx.toNat
  | .push _ => r = cfg.spIndex
  | .pop a => r = cfg.spIndex ∨ r = a.idx.toNat
  | .call _ => r = cfg.spIndex
  | .ret => r = cfg.spIndex
  | .jump _ => False
  | .jumpIfTrue _ => False
  | .testEquals _ _ => False
  | .echo _ => False
  | .iinput _ => False
  | .halt => False

/-- The address an effective-address or stack computation gives, `none` where it faults. -/
def addressOf {α : Type} (f : α → Int) (r : Checked α) : Option Int :=
  match r with
  | .ok a => some (f a)
  | .error _ => none

/-- The address an instruction stores to, computed as its meaning computes it; `none` for a form that stores nothing
(the table of R54; the store of Iinput is its completion's). -/
def storeAddress (i : Instr) (s : State) : Option Int :=
  match i with
  | .add _ _ _ => none
  | .mul _ _ _ => none
  | .increment _ => none
  | .decrement _ => none
  | .moveReg dst _ => if dst.ind then addressOf id (effectiveAddress s dst) else none
  | .moveInt dst _ => if dst.ind then addressOf id (effectiveAddress s dst) else none
  | .moveText dst _ => if dst.ind then addressOf id (effectiveAddress s dst) else none
  | .load _ _ => none
  | .push _ => addressOf BitVec.toInt (stackAddress s)
  | .pop _ => none
  | .call _ => addressOf BitVec.toInt (stackAddress s)
  | .ret => none
  | .jump _ => none
  | .jumpIfTrue _ => none
  | .testEquals _ _ => none
  | .echo _ => none
  | .iinput _ => none
  | .halt => none

/-- A field of an instruction word is legal for its kind: bit 24 clear where it names a direct register, all zero where it
is unused (checks 4 and 5 of R84). -/
abbrev FieldLegal (k : OperandKind) (f : BitVec 32) : Prop :=
  (k = .direct → f.getLsbD 24 = false) ∧ (k = .unused → f = 0)

/-- The word of `i` is the header `h` with the fields `a`, `b`, `c` in their 32-bit places (R79). -/
def EncodedAs (i : Instr) (h : Nat) (a b c : BitVec 32) : Prop :=
  (encode i).toNat = h + 2 ^ 32 * a.toNat + 2 ^ 64 * b.toNat + 2 ^ 96 * c.toNat

/-- The bits of an instruction's word that its decoding depends on: all but bits 31 to 25 of each register descriptor
(R73, R81). -/
def keptBits : Instr → InstrWord
  | .add _ _ _ => 0x01FFFFFF_01FFFFFF_01FFFFFF_FFFFFFFF
  | .mul _ _ _ => 0x01FFFFFF_01FFFFFF_01FFFFFF_FFFFFFFF
  | .increment _ => 0xFFFFFFFF_FFFFFFFF_01FFFFFF_FFFFFFFF
  | .decrement _ => 0xFFFFFFFF_FFFFFFFF_01FFFFFF_FFFFFFFF
  | .moveReg _ _ => 0xFFFFFFFF_01FFFFFF_01FFFFFF_FFFFFFFF
  | .moveInt _ _ => 0xFFFFFFFF_FFFFFFFF_01FFFFFF_FFFFFFFF
  | .moveText _ _ => 0xFFFFFFFF_FFFFFFFF_01FFFFFF_FFFFFFFF
  | .load _ _ => 0xFFFFFFFF_FFFFFFFF_01FFFFFF_FFFFFFFF
  | .push _ => 0xFFFFFFFF_FFFFFFFF_01FFFFFF_FFFFFFFF
  | .pop _ => 0xFFFFFFFF_FFFFFFFF_01FFFFFF_FFFFFFFF
  | .call _ => 0xFFFFFFFF_FFFFFFFF_FFFFFFFF_FFFFFFFF
  | .ret => 0xFFFFFFFF_FFFFFFFF_FFFFFFFF_FFFFFFFF
  | .jump _ => 0xFFFFFFFF_FFFFFFFF_FFFFFFFF_FFFFFFFF
  | .jumpIfTrue _ => 0xFFFFFFFF_FFFFFFFF_FFFFFFFF_FFFFFFFF
  | .testEquals _ _ => 0xFFFFFFFF_01FFFFFF_01FFFFFF_FFFFFFFF
  | .echo _ => 0xFFFFFFFF_FFFFFFFF_01FFFFFF_FFFFFFFF
  | .iinput _ => 0xFFFFFFFF_FFFFFFFF_FFFFFFFF_FFFFFFFF
  | .halt => 0xFFFFFFFF_FFFFFFFF_FFFFFFFF_FFFFFFFF

/-- The cell at pc holds an instruction word that decodes to `i`. -/
def Fetches (s : State) (i : Instr) : Prop := ∃ w, CellHolds s s.pc.toInt (.instr w) ∧ decode w = .ok i

/-- `i` is a Move to `dst` whose source has the value `v` in `s` (R141). -/
def MovesValue (i : Instr) (s : State) (dst : Descriptor) (v : Value) : Prop :=
  (∃ src, i = .moveReg dst src ∧ SourceHolds s src v) ∨ (∃ n, i = .moveInt dst n ∧ v = .int n) ∨
    (∃ h, i = .moveText dst h ∧ v = .text h)

/-- `i`, in its own step in `s`, is to store `v` at address `a`: a Move to memory, a Push or a Call (the table of R54; the
store of Iinput is its completion's). -/
def Stores (i : Instr) (s : State) (v : Value) (a : Int) : Prop :=
  (∃ dst, MovesValue i s dst v ∧ dst.ind = true ∧ Points s dst a) ∨
    (∃ x sp, i = .push x ∧ Holds s x.idx.toNat v ∧ HoldsInt s s.cfg.spIndex sp ∧ a = sp.toInt) ∨
    (∃ addr sp, i = .call addr ∧ v = .int s.pc ∧ HoldsInt s s.cfg.spIndex sp ∧ a = sp.toInt)

/-- A fetch in `u` sees `v` in the cell at pc: it gives the word where `v` is an instruction, and faults FETCH_NOT_INSTR with
info pc where it is anything else (R65, R104). -/
def FetchSees (u : State) (v : Value) : Prop :=
  (∀ w, v = .instr w → fetchWord u = .ok w) ∧
    ((∀ w, v ≠ .instr w) → fetchWord u = .error ⟨.fetchNotInstr, u.pc.toInt⟩)

/-- From `s` to `t` the value `v` was pushed at the stack address `sp`, and no other cell or register changed (R145). -/
abbrev Pushed (s t : State) (sp : Word) (v : Value) : Prop :=
  t.cell sp.toInt.toNat = v ∧ (∀ a, a ≠ sp.toInt.toNat → t.cell a = s.cell a) ∧
    (∃ n, t.reg s.cfg.spIndex = .int n ∧ n.toInt = sp.toInt - 1) ∧ (∀ r, r ≠ s.cfg.spIndex → t.reg r = s.reg r)

/-- The pc an instruction that completes leaves, `s.pc` being f + 1 (the table of R28). -/
def PcAfter (i : Instr) (s : State) (p : Word) : Prop :=
  match i with
  | .add _ _ _ => p = s.pc
  | .mul _ _ _ => p = s.pc
  | .increment _ => p = s.pc
  | .decrement _ => p = s.pc
  | .moveReg _ _ => p = s.pc
  | .moveInt _ _ => p = s.pc
  | .moveText _ _ => p = s.pc
  | .load _ _ => p = s.pc
  | .push _ => p = s.pc
  | .pop _ => p = s.pc
  | .call addr => p = addr
  | .ret => ∃ sp, HoldsInt s s.cfg.spIndex sp ∧ CellHolds s (sp.toInt + 1) (.int p)
  | .jump addr => p = addr
  | .jumpIfTrue addr => p = if s.flag then addr else s.pc
  | .testEquals _ _ => p = s.pc
  | .echo _ => p = s.pc
  | .iinput _ => p = s.pc
  | .halt => p = s.pc

/-- What a fault of a step in RUN with cause `c` and info `n` says about the state it happened in (the table of R201). -/
def CauseExplains (s : State) (c : FaultCause) (n : Int) : Prop :=
  match c with
  | .none => False
  | .fetchRange => OutOfMem s s.pc.toInt ∧ n = s.pc.toInt
  | .fetchNotInstr => ¬ OutOfMem s s.pc.toInt ∧ (∀ w, s.cell s.pc.toInt.toNat ≠ .instr w) ∧ n = s.pc.toInt
  | .illegalInstr => (∃ w e, CellHolds s s.pc.toInt (.instr w) ∧ decode w = .error e) ∧ n = 0
  | .regRange => (s.cfg.regCount : Int) ≤ n ∧ n ≤ 255
  | .memRange => OutOfMem s n
  | .notInteger => ∃ (i : Nat) (v : Value), n = (i : Int) ∧ Holds s i v ∧ v.isInt = false
  | .retNotInteger => Fetches s .ret ∧ ∃ v, CellHolds s n v ∧ v.isInt = false
  | .emptyReg => ∃ i : Nat, n = (i : Int) ∧ i < s.cfg.regCount ∧ s.reg i = .empty
  | .emptyMem => 0 ≤ n ∧ n < (s.cfg.memSize : Int) ∧ s.cell n.toNat = .empty
  | .inputEos => False

/-- The table of R231 holds of `t`. -/
structure ResetValues (t : State) : Prop where
  /-- Every register is Empty. -/
  regs : ∀ i, t.reg i = .empty
  /-- Every memory cell is Empty. -/
  mem : ∀ a, t.cell a = .empty
  /-- pc is the reset vector. -/
  pc : t.pc = 0
  /-- The flag is false. -/
  flag : t.flag = false
  /-- STATE is LOAD. -/
  fsm : t.fsm = .load
  /-- The fault record is clear. -/
  record : t.faultCause = .none ∧ t.faultPc = 0 ∧ t.faultInfo = 0
  /-- The latches are 0. -/
  latches : t.curPc = 0 ∧ t.inAddr = 0
  /-- The output sequence is empty. -/
  output : t.output = []

/-- The host's next event, `idle` where it brings none. -/
def State.nextEvent (s : State) : HostEvent :=
  match s.host with
  | [] => .idle
  | e :: _ => e

/-- The state with its next host event taken. -/
def State.eventTaken (s : State) : State := { s with host := s.host.tail }

/-- The core is in RUN and left to itself at this step: in RUN every host event but `reset` is one it does not accept. -/
abbrev State.runsAlone (s : State) : Prop := s.fsm = .run ∧ s.nextEvent ≠ .reset

/-- The state with its next host event replaced by `idle`: the host as if it had done nothing at this step. -/
def State.eventIgnored (s : State) : State := { s with host := .idle :: s.host.tail }

end Sys2Proof.Machine
end

