-- ==== Sys2Proof/Certificates/Slice0/Obligations.lean ====
section
/-! DEFINITION. The statements for the provers, from the numbered rules of spec/, in the order: encoding; the instructions;
the step and its faults; the host; frames and invariants. -/

open Sys2Proof Sys2Proof.Machine

/-! ## Encoding -/

/-- R77: the encoder of a descriptor is the rule's formula, and decoding gives the triple back. -/
def Obligations.DescriptorTriplesRoundTrip : Prop :=
  ∀ (i : Nat) (f : Bool) (o : Int), i ≤ 255 → -32768 ≤ o → o ≤ 32767 →
    (encDescriptor i f o).toNat = i + (o % 65536).toNat * 256 + (if f then 16777216 else 0) ∧
    (descIdx (encDescriptor i f o)).toNat = i ∧ descInd (encDescriptor i f o) = f ∧
    (descOff (encDescriptor i f o)).toInt = o

/-- R73: IDX is bits 7 to 0, OFF bits 23 to 8 in two's complement, IND bit 24, and bits 31 to 25 are ignored. -/
def Obligations.DescriptorDecoderReadsItsThreeFields : Prop :=
  ∀ d : BitVec 32,
    (decodeDescriptor d).idx.toNat = d.toNat % 256 ∧
    ((decodeDescriptor d).ind = true ↔ d.toNat / 16777216 % 2 = 1) ∧
    (decodeDescriptor d).off.toInt =
      (if d.toNat / 256 % 65536 < 32768 then ((d.toNat / 256 % 65536 : Nat) : Int)
       else ((d.toNat / 256 % 65536 : Nat) : Int) - 65536) ∧
    decodeDescriptor d = decodeDescriptor (d &&& 0x01FFFFFF#32)

/-- R79 to R83: for every well-formed instruction, decoding its word gives it back, with every operand. -/
def Obligations.DecodeInvertsEncode : Prop := ∀ i : Instr, i.wf = true → decode (encode i) = .ok i

/-- R73, R79 to R83: a word that decodes gives a well-formed instruction, whose own word has every bit of it but the ignored
bits 31 to 25 of its register descriptors. So no two words of different meaning decode alike. -/
def Obligations.EncodeGivesBackDecodedWords : Prop :=
  ∀ (w : InstrWord) (i : Instr), decode w = .ok i → i.wf = true ∧ encode i = w &&& keptBits i

/-- The decoder accepts exactly the words that some row of spec/opcode_table.json covers by its match and mask, and the
instruction it gives is that row's. -/
def Obligations.DecoderAgreesWithOpcodeTable : Prop :=
  ∀ w : InstrWord,
    ((∃ i, decode w = .ok i) ↔ ∃ r ∈ opcodeTable, r.covers w = true) ∧
    ∀ i, decode w = .ok i → ∃ r, opcodeTable[i.row]? = some r ∧ r.covers w = true

/-- R84 and R106: a word decodes iff the five checks pass, and fetching one that does not faults ILLEGAL_INSTR with info 0,
pc at f + 1 and nothing else changed. -/
def Obligations.IllegalWordsFault : Prop :=
  (∀ w : InstrWord, (∃ i, decode w = .ok i) ↔
    ∃ o : Opcode, opField w = o.code ∧ rsvField w = 0 ∧
      (kField w = 0 ∨ (o = .move ∧ (kField w = 1 ∨ kField w = 2))) ∧
      FieldLegal o.kinds.1 (fieldA w) ∧ FieldLegal o.kinds.2.1 (fieldB w) ∧ FieldLegal o.kinds.2.2 (fieldC w)) ∧
  (∀ (s : State) (w : InstrWord) (e : DecodeError), s.runsAlone → CellHolds s s.pc.toInt (.instr w) →
    decode w = .error e →
    step s = .next { s.eventTaken with
      curPc := s.pc, pc := s.pc + 1, fsm := .faulted, faultCause := .illegalInstr, faultPc := s.pc, faultInfo := 0 })

/-- R89: the two example words, decoded and encoded. -/
def Obligations.ExampleWordsDecode : Prop :=
  decode 0x00000002_00000001_00000000_00000002#128 = .ok (.mul ⟨0, false, 0⟩ ⟨1, false, 0⟩ ⟨2, false, 0⟩) ∧
  encode (.mul ⟨0, false, 0⟩ ⟨1, false, 0⟩ ⟨2, false, 0⟩) = 0x00000002_00000001_00000000_00000002#128 ∧
  encDescriptor 3 true (-1) = 0x01FFFF03#32 ∧
  decode 0x00000000_00000007_01FFFF03_00000205#128 = .ok (.moveText ⟨3, true, -1⟩ 7) ∧
  encode (.moveText ⟨3, true, -1⟩ 7) = 0x00000000_00000007_01FFFF03_00000205#128

/-- R71: the tags and payloads of the cell format, and no two values share a cell. -/
def Obligations.CellFormatRoundTrips : Prop :=
  (∀ v : Value, v.toCell.toNat =
    match v with
    | .empty => 0
    | .int n => 2 ^ 128 + n.toNat
    | .text t => 2 * 2 ^ 128 + t.toNat
    | .instr w => 3 * 2 ^ 128 + w.toNat) ∧
  (∀ v : Value, Value.ofCell v.toCell = some v) ∧
  (∀ (c : BitVec 130) (v : Value), Value.ofCell c = some v → v.toCell = c)

/-! ## The ALU instructions -/

/-- R123. -/
def Obligations.AddFollowsItsRule : Prop :=
  ∀ (a b c : Descriptor) (s : State),
    EncodedAs (.add a b c) 0x01 a.field b.field c.field ∧
    (∀ x y, HoldsInt s b.idx.toNat x → HoldsInt s c.idx.toNat y → a.idx.toNat < s.cfg.regCount →
      ∃ n : Word, n.toInt % 4294967296 = (x.toInt + y.toInt) % 4294967296 ∧
        SetsReg (.add a b c) s a.idx.toNat (.int n)) ∧
    (∀ k, IntFault s b.idx.toNat k → FaultsWith (.add a b c) s k b.idx.toNat) ∧
    (∀ x k, HoldsInt s b.idx.toNat x → IntFault s c.idx.toNat k → FaultsWith (.add a b c) s k c.idx.toNat) ∧
    (∀ x y, HoldsInt s b.idx.toNat x → HoldsInt s c.idx.toNat y → s.cfg.regCount ≤ a.idx.toNat →
      FaultsWith (.add a b c) s .regRange a.idx.toNat)

/-- R124. -/
def Obligations.MulFollowsItsRule : Prop :=
  ∀ (a b c : Descriptor) (s : State),
    EncodedAs (.mul a b c) 0x02 a.field b.field c.field ∧
    (∀ x y, HoldsInt s b.idx.toNat x → HoldsInt s c.idx.toNat y → a.idx.toNat < s.cfg.regCount →
      ∃ n : Word, n.toInt % 4294967296 = (x.toInt * y.toInt) % 4294967296 ∧
        SetsReg (.mul a b c) s a.idx.toNat (.int n)) ∧
    (∀ k, IntFault s b.idx.toNat k → FaultsWith (.mul a b c) s k b.idx.toNat) ∧
    (∀ x k, HoldsInt s b.idx.toNat x → IntFault s c.idx.toNat k → FaultsWith (.mul a b c) s k c.idx.toNat) ∧
    (∀ x y, HoldsInt s b.idx.toNat x → HoldsInt s c.idx.toNat y → s.cfg.regCount ≤ a.idx.toNat →
      FaultsWith (.mul a b c) s .regRange a.idx.toNat)

/-- R125. -/
def Obligations.IncrementFollowsItsRule : Prop :=
  ∀ (a : Descriptor) (s : State),
    EncodedAs (.increment a) 0x03 a.field 0 0 ∧
    (∀ x, HoldsInt s a.idx.toNat x →
      ∃ n : Word, n.toInt = (if x.toInt = 2147483647 then -2147483648 else x.toInt + 1) ∧
        SetsReg (.increment a) s a.idx.toNat (.int n)) ∧
    (∀ k, IntFault s a.idx.toNat k → FaultsWith (.increment a) s k a.idx.toNat)

/-- R126. -/
def Obligations.DecrementFollowsItsRule : Prop :=
  ∀ (a : Descriptor) (s : State),
    EncodedAs (.decrement a) 0x04 a.field 0 0 ∧
    (∀ x, HoldsInt s a.idx.toNat x →
      ∃ n : Word, n.toInt = (if x.toInt = -2147483648 then 2147483647 else x.toInt - 1) ∧
        SetsReg (.decrement a) s a.idx.toNat (.int n)) ∧
    (∀ k, IntFault s a.idx.toNat k → FaultsWith (.decrement a) s k a.idx.toNat)

/-- R127: on values that are not Empty, ValueEq is equality of variant and content. -/
def Obligations.ValueEqComparesVariantAndContent : Prop :=
  ∀ v1 v2 : Value, v1 ≠ .empty → v2 ≠ .empty → (valueEq v1 v2 = true ↔ v1 = v2)

/-- R128: the flag is the equality of the two values, of whatever variants; nothing else changes. -/
def Obligations.TestEqualsFollowsItsRule : Prop :=
  ∀ (a b : Descriptor) (s : State),
    EncodedAs (.testEquals a b) 0x0D a.field b.field 0 ∧
    (∀ v1 v2, Holds s a.idx.toNat v1 → Holds s b.idx.toNat v2 →
      exec (.testEquals a b) s = .next { s with flag := decide (v1 = v2) }) ∧
    (∀ k, ReadFault s a.idx.toNat k → FaultsWith (.testEquals a b) s k a.idx.toNat) ∧
    (∀ v1 k, Holds s a.idx.toNat v1 → ReadFault s b.idx.toNat k → FaultsWith (.testEquals a b) s k b.idx.toNat)

/-! ## Data movement and the stack -/

/-- R75: the effective address is the exact sum of base and offset; it fits W + 1 bits; and because of the bound on N the
sum and its W-bit wrap name the same cell or are both outside memory. -/
def Obligations.EffectiveAddressIsExact : Prop :=
  ∀ (s : State) (d : Descriptor),
    (∀ b, HoldsInt s d.idx.toNat b → effectiveAddress s d = .ok (b.toInt + d.off.toInt)) ∧
    (∀ k, IntFault s d.idx.toNat k → effectiveAddress s d = .error ⟨k, d.idx.toNat⟩) ∧
    (∀ a, effectiveAddress s d = .ok a → -2147516416 ≤ a ∧ a ≤ 2147516414 ∧
      ((¬ OutOfMem s a ∧ (BitVec.ofInt 32 a).toInt = a) ∨ (OutOfMem s a ∧ OutOfMem s (BitVec.ofInt 32 a).toInt)))

/-- R142: the three forms of Move, to a register and to memory. -/
def Obligations.MoveFollowsItsRule : Prop :=
  (∀ (i : Instr) (s : State) (dst : Descriptor) (v : Value), MovesValue i s dst v →
    (dst.ind = false → dst.idx.toNat < s.cfg.regCount → SetsReg i s dst.idx.toNat v) ∧
    (∀ a, dst.ind = true → Points s dst a → ¬ OutOfMem s a → SetsCell i s a v) ∧
    (dst.ind = false → s.cfg.regCount ≤ dst.idx.toNat → FaultsWith i s .regRange dst.idx.toNat) ∧
    (∀ k, dst.ind = true → IntFault s dst.idx.toNat k → FaultsWith i s k dst.idx.toNat) ∧
    (∀ a, dst.ind = true → Points s dst a → OutOfMem s a → FaultsWith i s .memRange a)) ∧
  (∀ (dst src : Descriptor) (s : State) (k : FaultCause) (n : Int), SourceFault s src k n →
    FaultsWith (.moveReg dst src) s k n) ∧
  (∀ (dst src : Descriptor) (n : Word) (h : Handle), EncodedAs (.moveReg dst src) 0x005 dst.field src.field 0 ∧
    EncodedAs (.moveInt dst n) 0x105 dst.field n 0 ∧ EncodedAs (.moveText dst h) 0x205 dst.field h 0)

/-- R143. -/
def Obligations.LoadFollowsItsRule : Prop :=
  ∀ (a : Descriptor) (addr : Word) (s : State),
    EncodedAs (.load a addr) 0x06 a.field addr 0 ∧
    (∀ v, CellHolds s addr.toInt v → a.idx.toNat < s.cfg.regCount → SetsReg (.load a addr) s a.idx.toNat v) ∧
    (∀ k, CellFault s addr.toInt k → FaultsWith (.load a addr) s k addr.toInt) ∧
    (∀ v, CellHolds s addr.toInt v → s.cfg.regCount ≤ a.idx.toNat →
      FaultsWith (.load a addr) s .regRange a.idx.toNat)

/-- R146: the register, sp included, is stored at the old stack address, then sp goes down by one. -/
def Obligations.PushFollowsItsRule : Prop :=
  ∀ (a : Descriptor) (s : State),
    EncodedAs (.push a) 0x07 a.field 0 0 ∧
    (∀ v sp, Holds s a.idx.toNat v → HoldsInt s s.cfg.spIndex sp → ¬ OutOfMem s sp.toInt →
      ∃ t, exec (.push a) s = .next t ∧ Pushed s t sp v ∧ t = { s with regs := t.regs, mem := t.mem }) ∧
    (∀ k, ReadFault s a.idx.toNat k → FaultsWith (.push a) s k a.idx.toNat) ∧
    (∀ v k, Holds s a.idx.toNat v → IntFault s s.cfg.spIndex k → FaultsWith (.push a) s k s.cfg.spIndex) ∧
    (∀ v sp, Holds s a.idx.toNat v → HoldsInt s s.cfg.spIndex sp → OutOfMem s sp.toInt →
      FaultsWith (.push a) s .memRange sp.toInt)

/-- R147: sp goes up by one and the register gets the cell there; the popped value wins where the register is sp. -/
def Obligations.PopFollowsItsRule : Prop :=
  ∀ (a : Descriptor) (s : State),
    EncodedAs (.pop a) 0x08 a.field 0 0 ∧
    (∀ sp v, HoldsInt s s.cfg.spIndex sp → CellHolds s (sp.toInt + 1) v → a.idx.toNat < s.cfg.regCount →
      ∃ t, exec (.pop a) s = .next t ∧ t = { s with regs := t.regs } ∧ t.reg a.idx.toNat = v ∧
        (a.idx.toNat ≠ s.cfg.spIndex → ∃ n, t.reg s.cfg.spIndex = .int n ∧ n.toInt = sp.toInt + 1) ∧
        ∀ r, r ≠ a.idx.toNat → r ≠ s.cfg.spIndex → t.reg r = s.reg r) ∧
    (∀ k, IntFault s s.cfg.spIndex k → FaultsWith (.pop a) s k s.cfg.spIndex) ∧
    (∀ sp k, HoldsInt s s.cfg.spIndex sp → CellFault s (sp.toInt + 1) k → FaultsWith (.pop a) s k (sp.toInt + 1)) ∧
    (∀ sp v, HoldsInt s s.cfg.spIndex sp → CellHolds s (sp.toInt + 1) v → s.cfg.regCount ≤ a.idx.toNat →
      FaultsWith (.pop a) s .regRange a.idx.toNat)

/-- R148: a Push of rX and then, with registers and memory as the Push left them, a Pop of rY. -/
def Obligations.PopUndoesPush : Prop :=
  ∀ (x y : Descriptor) (s : State) (v : Value) (sp : Word), Holds s x.idx.toNat v → HoldsInt s s.cfg.spIndex sp →
    (¬ OutOfMem s sp.toInt → y.idx.toNat < s.cfg.regCount → y.idx.toNat ≠ s.cfg.spIndex →
      ∃ t, exec (.push x) s = .next t ∧
        ∀ t' : State, t'.cfg = t.cfg → t'.regs = t.regs → t'.mem = t.mem →
          ∃ u, exec (.pop y) t' = .next u ∧ u.reg y.idx.toNat = v ∧ u.reg s.cfg.spIndex = .int sp ∧
            u.cell sp.toInt.toNat = v) ∧
    (OutOfMem s sp.toInt → FaultsWith (.push x) s .memRange sp.toInt)

/-! ## Control transfer -/

/-- R161: the pushed return address is pc, which is f + 1 when the instruction starts. -/
def Obligations.CallFollowsItsRule : Prop :=
  ∀ (addr : Word) (s : State),
    EncodedAs (.call addr) 0x09 addr 0 0 ∧
    (∀ sp, HoldsInt s s.cfg.spIndex sp → ¬ OutOfMem s sp.toInt →
      ∃ t, exec (.call addr) s = .next t ∧ Pushed s t sp (.int s.pc) ∧
        t = { s with regs := t.regs, mem := t.mem, pc := addr }) ∧
    (∀ k, IntFault s s.cfg.spIndex k → FaultsWith (.call addr) s k s.cfg.spIndex) ∧
    (∀ sp, HoldsInt s s.cfg.spIndex sp → OutOfMem s sp.toInt → FaultsWith (.call addr) s .memRange sp.toInt)

/-- R162. -/
def Obligations.RetFollowsItsRule : Prop :=
  ∀ s : State,
    EncodedAs .ret 0x0A 0 0 0 ∧
    (∀ sp r, HoldsInt s s.cfg.spIndex sp → CellHolds s (sp.toInt + 1) (.int r) →
      ∃ t, exec .ret s = .next t ∧ t = { s with regs := t.regs, pc := r } ∧
        (∃ n, t.reg s.cfg.spIndex = .int n ∧ n.toInt = sp.toInt + 1) ∧
        ∀ q, q ≠ s.cfg.spIndex → t.reg q = s.reg q) ∧
    (∀ k, IntFault s s.cfg.spIndex k → FaultsWith .ret s k s.cfg.spIndex) ∧
    (∀ sp k, HoldsInt s s.cfg.spIndex sp → CellFault s (sp.toInt + 1) k → FaultsWith .ret s k (sp.toInt + 1)) ∧
    (∀ sp v, HoldsInt s s.cfg.spIndex sp → CellHolds s (sp.toInt + 1) v → v.isInt = false →
      FaultsWith .ret s .retNotInteger (sp.toInt + 1))

/-- R163. -/
def Obligations.JumpFollowsItsRule : Prop :=
  ∀ (addr : Word) (s : State),
    EncodedAs (.jump addr) 0x0B addr 0 0 ∧ exec (.jump addr) s = .next { s with pc := addr }

/-- R164: the flag is read and not written. -/
def Obligations.JumpIfTrueFollowsItsRule : Prop :=
  ∀ (addr : Word) (s : State),
    EncodedAs (.jumpIfTrue addr) 0x0C addr 0 0 ∧
    (s.flag = true → exec (.jumpIfTrue addr) s = .next { s with pc := addr }) ∧
    (s.flag = false → exec (.jumpIfTrue addr) s = .next s)

/-- R165 and R109: only STATE changes; the run result is then true. -/
def Obligations.HaltFollowsItsRule : Prop :=
  ∀ s : State,
    EncodedAs .halt 0x10 0 0 0 ∧
    ∃ t, exec .halt s = .next t ∧ t = { s with fsm := .halted } ∧ t.runResult = some true

/-- R166: Call, then a subroutine that leaves sp and the pushed cell as they were, then Ret. -/
def Obligations.RetUndoesCall : Prop :=
  ∀ (addr : Word) (s : State) (sp : Word), HoldsInt s s.cfg.spIndex sp → ¬ OutOfMem s sp.toInt →
    ∃ t, exec (.call addr) s = .next t ∧ t.pc = addr ∧
      ∀ t' : State, t'.cfg = t.cfg → t'.reg s.cfg.spIndex = t.reg s.cfg.spIndex →
        t'.cell sp.toInt.toNat = .int s.pc →
        ∃ u, exec .ret t' = .next u ∧ u.pc = s.pc ∧ u.reg s.cfg.spIndex = .int sp

/-! ## Input and output -/

/-- R181: one output event carrying the resolved value, or a fault that sends nothing. -/
def Obligations.EchoFollowsItsRule : Prop :=
  ∀ (a : Descriptor) (s : State),
    EncodedAs (.echo a) 0x0E a.field 0 0 ∧
    (∀ v, SourceHolds s a v → exec (.echo a) s = .next { s with output := s.output ++ [v] }) ∧
    (∀ k n, SourceFault s a k n → FaultsWith (.echo a) s k n)

/-- R183: the request step of Iinput, and its completion on each of the four responses. A request is outstanding exactly in
WAIT_IN: the model's reading of R37 and R182 (DEDUCED, log entry 9), not a sentence of R183. -/
def Obligations.IinputFollowsItsRule : Prop :=
  (∀ (addr : Word) (s : State), EncodedAs (.iinput addr) 0x0F addr 0 0 ∧
    exec (.iinput addr) s = .next { s with inAddr := addr, fsm := .waitIn }) ∧
  (∀ s : State, s.requestOutstanding = true ↔ s.fsm = .waitIn) ∧
  (∀ (s : State) (n : Word), s.fsm = .waitIn → s.nextEvent = .respond (.int n) → ¬ OutOfMem s s.inAddr.toInt →
    ∃ t, step s = .next t ∧ t = { s.eventTaken with mem := t.mem, flag := true, fsm := .run } ∧
      t.cell s.inAddr.toInt.toNat = .int n ∧ ∀ a, a ≠ s.inAddr.toInt.toNat → t.cell a = s.cell a) ∧
  (∀ (s : State) (n : Word), s.fsm = .waitIn → s.nextEvent = .respond (.int n) → OutOfMem s s.inAddr.toInt →
    ∃ t, step s = .next t ∧ t.faultInfo.toInt = s.inAddr.toInt ∧
      t = { s.eventTaken with
        fsm := .faulted, faultCause := .memRange, faultPc := s.curPc, faultInfo := t.faultInfo }) ∧
  (∀ s : State, s.fsm = .waitIn → s.nextEvent = .respond .parseFail ∨ s.nextEvent = .respond .readError →
    step s = .next { s.eventTaken with flag := false, fsm := .run }) ∧
  (∀ s : State, s.fsm = .waitIn → s.nextEvent = .respond .eos →
    step s = .next { s.eventTaken with
      fsm := .faulted, faultCause := .inputEos, faultPc := s.curPc, faultInfo := 0 })

/-! ## The step -/

/-- R102, R105, R107: where the cell at pc decodes to `i`, the step is exec of `i` on the state with the host's event taken,
CUR_PC latched and pc advanced to f + 1; that sum does not wrap (R29). -/
def Obligations.StepRunsTheDecodedInstruction : Prop :=
  ∀ (s : State) (i : Instr), s.runsAlone → Fetches s i →
    step s = exec i { s.eventTaken with curPc := s.pc, pc := s.pc + 1 } ∧ (s.pc + 1).toInt = s.pc.toInt + 1

/-- The word that `withFetchWord` places is the one the very next step runs (log entry 6), on the state `u` that this says in
full: `s` in RUN, with the word in the cell at CUR_PC and no other cell changed, CUR_PC the pc of `s` where a fetch there is in
range and 0 otherwise, and pc one more. -/
def Obligations.PlacedWordRunsNext : Prop :=
  ∀ (s : State) (nbits w : Nat) (i : Instr), decodeTableWord nbits w = some i →
    ∃ u, step (s.withFetchWord nbits w) = exec i u ∧
      u = { s with fsm := .run, mem := u.mem, curPc := u.curPc, pc := u.curPc + 1 } ∧
      (¬ OutOfMem s s.pc.toInt → u.curPc = s.pc) ∧ (OutOfMem s s.pc.toInt → u.curPc = 0) ∧
      u.cell u.curPc.toInt.toNat = .instr (tableWord nbits w) ∧
      ∀ a, a ≠ u.curPc.toInt.toNat → u.cell a = s.cell a

/-- R103 and R104: the two fetch faults, with pc not advanced. -/
def Obligations.FetchFaultsLeavePc : Prop :=
  ∀ s : State, s.runsAlone →
    (OutOfMem s s.pc.toInt →
      ∃ t, step s = .next t ∧ t.faultInfo.toInt = s.pc.toInt ∧
        t = { s.eventTaken with
          curPc := s.pc, fsm := .faulted, faultCause := .fetchRange, faultPc := s.pc, faultInfo := t.faultInfo }) ∧
    (¬ OutOfMem s s.pc.toInt → (∀ w, s.cell s.pc.toInt.toNat ≠ .instr w) →
      ∃ t, step s = .next t ∧ t.faultInfo.toInt = s.pc.toInt ∧
        t = { s.eventTaken with
          curPc := s.pc, fsm := .faulted, faultCause := .fetchNotInstr, faultPc := s.pc, faultInfo := t.faultInfo })

/-- R112: every step answers a next state; the machine never stops the model. R112 says so of RUN; that an idle step in LOAD,
WAIT_IN, HALTED and FAULTED answers one, and that a fault is a next state, are the model's (log entries 7 and 8). -/
def Obligations.EveryStepAnswersNext : Prop := ∀ s : State, ∃ t, step s = .next t

/-- R100: the transitions of STATE, no others. -/
def Obligations.OnlyTheListedTransitionsOccur : Prop :=
  ∀ s t : State, step s = .next t →
    (s.nextEvent = .reset → t.fsm = .load) ∧
    (s.nextEvent ≠ .reset →
      (s.fsm = .load → (s.nextEvent = .start ∧ t.fsm = .run) ∨ (s.nextEvent ≠ .start ∧ t.fsm = .load)) ∧
      (s.fsm = .run → t.fsm ≠ .load ∧ (t.fsm = .halted ↔ Fetches s .halt) ∧
        (t.fsm = .waitIn ↔ ∃ addr, Fetches s (.iinput addr))) ∧
      (s.fsm = .waitIn → t.fsm ≠ .load ∧ t.fsm ≠ .halted ∧ (t.fsm = .waitIn ↔ ∀ r, s.nextEvent ≠ .respond r) ∧
        (t.fsm = .faulted ↔ s.nextEvent = .respond .eos ∨
          (OutOfMem s s.inAddr.toInt ∧ ∃ n, s.nextEvent = .respond (.int n)))) ∧
      (s.fsm = .halted → t.fsm = .halted) ∧
      (s.fsm = .faulted → t.fsm = .faulted))

/-- R204 and R15: a step that enters FAULTED commits nothing of the instruction. Registers, memory, flag, output and IN_ADDR
are as before; FAULT_PC is CUR_PC; pc is f for a fetch fault and f + 1 for a later one, and unchanged in WAIT_IN. That the
host's event is taken from a list is the model's (log entry 4). -/
def Obligations.FaultsArePrecise : Prop :=
  ∀ s t : State, step s = .next t → s.fsm ≠ .faulted → t.fsm = .faulted →
    t.cfg = s.cfg ∧ t.regs = s.regs ∧ t.mem = s.mem ∧ t.flag = s.flag ∧ t.output = s.output ∧ t.inAddr = s.inAddr ∧
    t.host = s.host.tail ∧ t.faultPc = t.curPc ∧ t.faultCause ≠ .none ∧
    (s.fsm = .run → t.curPc = s.pc ∧ (t.fetchFault → t.pc = s.pc) ∧ (¬ t.fetchFault → t.pc = s.pc + 1)) ∧
    (s.fsm = .waitIn → t.curPc = s.curPc ∧ t.pc = s.pc)

/-- R201: the recorded cause and info of a fault raised in RUN are true of the state the instruction ran in. -/
def Obligations.FaultRecordTellsTheTruth : Prop :=
  ∀ s t : State, step s = .next t → s.fsm = .run → t.fsm = .faulted →
    CauseExplains s t.faultCause t.faultInfo.toInt

/-- R163 and scenario D: a Jump to itself, undisturbed by the host, runs out of every fuel and stays in RUN. -/
def Obligations.JumpToItselfNeverEnds : Prop :=
  ∀ (k : Nat) (s : State), s.fsm = .run → s.host = [] → Fetches s (.jump s.pc) →
    ∃ t, runFuel k s = .outOfFuel t ∧ t.fsm = .run ∧ t.pc = s.pc

/-- R65: what an instruction stores, a Move, a Push, a Call or the completion of an Iinput, is what the next fetch of that
cell sees, an instruction or data. A response is an event of the model's host list (log entry 4). -/
def Obligations.StoredCellsAreFetched : Prop :=
  (∀ (i : Instr) (s t : State) (v : Value) (a : Int), Stores i s v a → ¬ OutOfMem s a → exec i s = .next t →
    ∀ u : State, u.cfg = t.cfg → u.mem = t.mem → u.pc.toInt = a → FetchSees u v) ∧
  (∀ (s t : State) (n : Word), s.fsm = .waitIn → s.nextEvent = .respond (.int n) → ¬ OutOfMem s s.inAddr.toInt →
    step s = .next t →
    ∀ u : State, u.cfg = t.cfg → u.mem = t.mem → u.pc = s.inAddr → FetchSees u (.int n))

/-! ## The host

That the host's events stand in a list of which each step takes one, that an event the core does not accept leaves the core
to itself, and that an idle core steps to the same state, are the model's choices (log entries 4, 5, 7), not the spec's. -/

/-- R101: LOAD executes nothing, `start` begins at pc 0, and `start` in any other state is as if the host were idle. That the
core then takes its own step is log entry 5, the idle step in LOAD log entry 7, and that `start` writes pc in every state of
LOAD log entry 12: the model's, not R101's. -/
def Obligations.StartBeginsExecutionAtZero : Prop :=
  (∀ s : State, s.fsm = .load → s.nextEvent = .idle → step s = .next s.eventTaken) ∧
  (∀ s : State, s.fsm = .load → s.nextEvent = .start → step s = .next { s.eventTaken with pc := 0, fsm := .run }) ∧
  (∀ s : State, s.fsm ≠ .load → s.nextEvent = .start → step s = step s.eventIgnored)

/-- R232: the three load requests, in LOAD and in range; refused, they change nothing. That the core takes its own step beside
a refused request, and that the request is an event of a list, are the model's (log entries 4 and 5). -/
def Obligations.LoaderWritesOnlyInLoad : Prop :=
  (∀ (s : State) (a : Int) (v : Value), s.fsm = .load → s.nextEvent = .loadMem a v →
    (¬ OutOfMem s a → ∃ t, step s = .next t ∧ t = { s.eventTaken with mem := t.mem } ∧ t.cell a.toNat = v ∧
      ∀ b, b ≠ a.toNat → t.cell b = s.cell b) ∧
    (OutOfMem s a → step s = .next s.eventTaken)) ∧
  (∀ (s : State) (i : Int) (v : Value), s.fsm = .load → s.nextEvent = .loadReg i v →
    (0 ≤ i → i < (s.cfg.regCount : Int) → ∃ t, step s = .next t ∧ t = { s.eventTaken with regs := t.regs } ∧
      t.reg i.toNat = v ∧ ∀ r, r ≠ i.toNat → t.reg r = s.reg r) ∧
    (i < 0 ∨ (s.cfg.regCount : Int) ≤ i → step s = .next s.eventTaken)) ∧
  (∀ (s : State) (b : Bool), s.fsm = .load → s.nextEvent = .loadFlag b →
    step s = .next { s.eventTaken with flag := b }) ∧
  (∀ s : State, s.fsm ≠ .load →
    ((∃ a v, s.nextEvent = .loadMem a v) ∨ (∃ i v, s.nextEvent = .loadReg i v) ∨ ∃ b, s.nextEvent = .loadFlag b) →
    step s = step s.eventIgnored)

/-- R113: in HALTED and FAULTED nothing happens until reset. That a step there answers the same state, its host event taken,
is the model's (log entries 4, 5 and 7). -/
def Obligations.TerminalStatesWaitForReset : Prop :=
  ∀ s : State, s.ended → s.nextEvent ≠ .reset → step s = .next s.eventTaken

/-- R184: the core does not leave WAIT_IN, nor change in it, without a response or a reset. -/
def Obligations.WaitInNeedsAResponse : Prop :=
  ∀ s : State, s.fsm = .waitIn → s.nextEvent ≠ .reset → (∀ r, s.nextEvent ≠ .respond r) →
    step s = .next s.eventTaken

/-- R230 and R231: reset from any state, and the machine at its creation, have every reset value. That the configuration and
the host's later events stay is the model's (log entry 16). -/
def Obligations.ResetRestoresEveryValue : Prop :=
  (∀ s : State, s.nextEvent = .reset →
    ∃ t, step s = .next t ∧ ResetValues t ∧ t.cfg = s.cfg ∧ t.host = s.host.tail) ∧
  (∀ (cfg : Config) (h : List HostEvent), ResetValues (State.resetOf cfg h) ∧ (State.resetOf cfg h).cfg = cfg)

/-- R33, R34, R32 and R201: the codes of STATE, the run result, and the codes of FAULT_CAUSE as the host reads them. That the
run result is no value before the end of a run is the model's (log entry 11). -/
def Obligations.StatusCodesAreTheListed : Prop :=
  (∀ s : State,
    (s.fsm = .load → s.statusState = 0#3 ∧ s.runResult = none) ∧
    (s.fsm = .run → s.statusState = 1#3 ∧ s.runResult = none) ∧
    (s.fsm = .waitIn → s.statusState = 2#3 ∧ s.runResult = none) ∧
    (s.fsm = .halted → s.statusState = 3#3 ∧ s.runResult = some true) ∧
    (s.fsm = .faulted → s.statusState = 4#3 ∧ s.runResult = some false)) ∧
  (∀ s : State,
    (s.faultCause = .none → s.statusCause = 0#4) ∧
    (s.faultCause = .fetchRange → s.statusCause = 1#4) ∧
    (s.faultCause = .fetchNotInstr → s.statusCause = 2#4) ∧
    (s.faultCause = .illegalInstr → s.statusCause = 3#4) ∧
    (s.faultCause = .regRange → s.statusCause = 4#4) ∧
    (s.faultCause = .memRange → s.statusCause = 5#4) ∧
    (s.faultCause = .notInteger → s.statusCause = 6#4) ∧
    (s.faultCause = .retNotInteger → s.statusCause = 7#4) ∧
    (s.faultCause = .emptyReg → s.statusCause = 8#4) ∧
    (s.faultCause = .emptyMem → s.statusCause = 9#4) ∧
    (s.faultCause = .inputEos → s.statusCause = 10#4)) ∧
  (∀ c d : FaultCause, c.code = d.code → c = d) ∧ ∀ c : FaultCause, c.code.toNat ≤ 10

/-- R235: read-back in LOAD, HALTED and FAULTED, none in RUN and WAIT_IN. -/
def Obligations.ReadBackOnlyOutsideARun : Prop :=
  ∀ (s : State) (i : Nat) (a : Int),
    (s.fsm = .load ∨ s.ended →
      s.hostReadPc = some s.pc ∧ s.hostReadFlag = some s.flag ∧
      (i < s.cfg.regCount → s.hostReadReg i = some (s.reg i)) ∧
      (¬ OutOfMem s a → s.hostReadMem a = some (s.cell a.toNat))) ∧
    (s.fsm = .run ∨ s.fsm = .waitIn →
      s.hostReadPc = none ∧ s.hostReadFlag = none ∧ s.hostReadReg i = none ∧ s.hostReadMem a = none)

/-- R9: no configuration is built outside R8, and every one inside is. -/
def Obligations.ConfigurationsOutsideR8AreRefused : Prop :=
  ∀ n m sp : Nat,
    (1 ≤ n ∧ n ≤ 2147450880 ∧ sp < m ∧ m ≤ 256 →
      ∃ c, Config.build? n m sp = some c ∧ c.memSize = n ∧ c.regCount = m ∧ c.spIndex = sp) ∧
    (¬ (1 ≤ n ∧ n ≤ 2147450880 ∧ sp < m ∧ m ≤ 256) → Config.build? n m sp = none)

/-! ## Memory, frames and invariants -/

/-- R56: a write request and the reads after it; a range error leaves the array unchanged. The canonical form that is kept is
the model's (log entry 3), not R56's. -/
def Obligations.MemoryPortReadsWhatWasWritten : Prop :=
  ∀ (s : State) (a : Int) (v : Value),
    (¬ OutOfMem s a → ∃ t, s.portWrite a v = some t ∧ t = { s with mem := t.mem } ∧
      (Memory.wf s.mem = true → Memory.wf t.mem = true) ∧
      ∀ b : Int, t.portRead b = if b = a then some v else s.portRead b) ∧
    (OutOfMem s a → s.portRead a = none ∧ s.portWrite a v = none)

/-- R23: an instruction changes no register but those of the rule's table, whether it completes or faults. -/
def Obligations.OnlyListedRegistersChange : Prop :=
  ∀ (i : Instr) (s t : State) (r : Nat), exec i s = .next t → ¬ WritesReg s.cfg i r → t.reg r = s.reg r

/-- R54: an instruction changes no cell but the one it stores to, whether it completes or faults. -/
def Obligations.OnlyTheStoredCellChanges : Prop :=
  ∀ (i : Instr) (s t : State), exec i s = .next t →
    (storeAddress i s = none → ∀ b : Nat, t.cell b = s.cell b) ∧
    (∀ a, storeAddress i s = some a → ∀ b : Nat, (b : Int) ≠ a → t.cell b = s.cell b)

/-- R28: pc after an instruction that completes; after one that faults it stays f + 1. -/
def Obligations.PcAfterEachInstruction : Prop :=
  ∀ (i : Instr) (s t : State), exec i s = .next t → s.fsm ≠ .faulted →
    (t.fsm ≠ .faulted → PcAfter i s t.pc) ∧ (t.fsm = .faulted → t.pc = s.pc)

/-- R31: of the instructions' own steps only TestEquals writes the flag, and only JumpIfTrue reads it: with another flag,
any other instruction does the same but for the flag itself. -/
def Obligations.FlagIsWrittenAndReadOnlyWhereListed : Prop :=
  ∀ (i : Instr) (s t : State), exec i s = .next t →
    ((∀ a b, i ≠ .testEquals a b) → t.flag = s.flag) ∧
    ((∀ addr, i ≠ .jumpIfTrue addr) → ∀ b : Bool,
      ∃ u, exec i { s with flag := b } = .next u ∧ t = { u with flag := t.flag })

/-- The rest of the frame: the parameters, CUR_PC and the host's events never change in an instruction; the output changes
only in Echo, IN_ADDR only in Iinput; STATE and the fault record only where the rules say. -/
def Obligations.TheRestOfTheStateIsFramed : Prop :=
  ∀ (i : Instr) (s t : State), exec i s = .next t →
    t.cfg = s.cfg ∧ t.curPc = s.curPc ∧ t.host = s.host ∧
    ((∀ a, i ≠ .echo a) → t.output = s.output) ∧
    ((∀ addr, i ≠ .iinput addr) → t.inAddr = s.inAddr) ∧
    ((∀ addr, i ≠ .iinput addr) → i ≠ .halt → t.fsm = s.fsm ∨ t.fsm = .faulted) ∧
    (t.fsm ≠ .faulted → t.faultCause = s.faultCause ∧ t.faultPc = s.faultPc ∧ t.faultInfo = s.faultInfo)

/-- R108 and R35: no instruction's effect depends on the host's coming events, on IN_ADDR or on what was output before. -/
def Obligations.InstructionsDoNotReadHiddenState : Prop :=
  ∀ (i : Instr) (s t : State) (h : List HostEvent) (ad : Word) (o : List Value), exec i s = .next t →
    ∃ u, exec i { s with host := h, inAddr := ad, output := o } = .next u ∧
      t = { u with host := t.host, inAddr := t.inAddr, output := t.output } ∧
      ∀ p : List Value, t.output = s.output ++ p → u.output = o ++ p

/-- R180: only an Echo adds to the output, exactly one value, the one its operand resolves to; and each completed Echo does. -/
def Obligations.OutputGrowsOnlyByEcho : Prop :=
  ∀ s t : State, step s = .next t → s.nextEvent ≠ .reset →
    (t.output = s.output ∨
      (s.fsm = .run ∧ ∃ a v, Fetches s (.echo a) ∧ SourceHolds s a v ∧ t.output = s.output ++ [v])) ∧
    (∀ a, s.fsm = .run → Fetches s (.echo a) → t.fsm ≠ .faulted →
      ∃ v, v ≠ .empty ∧ SourceHolds s a v ∧ t.output = s.output ++ [v])

/-- The parameters are not state: no step changes them (log entry 1). -/
def Obligations.ParametersNeverChange : Prop := ∀ s t : State, step s = .next t → t.cfg = s.cfg

/-- The machine's invariant holds right after reset, in every configuration and for every host. -/
def Obligations.ResetMeetsTheMachineInvariant : Prop :=
  MachineInv State.reset ∧ ∀ (cfg : Config) (h : List HostEvent), MachineInv (State.resetOf cfg h)

/-- The machine's invariant is kept by every step, whatever the host does. -/
def Obligations.EveryStepKeepsTheMachineInvariant : Prop := ∀ s t : State, MachineInv s → step s = .next t → MachineInv t

/-- The machine's invariant holds in every state of every run from reset, in every configuration and for every host: the host
may load any program and answer any input. -/
def Obligations.EveryReachableStateMeetsTheInvariant : Prop :=
  ∀ (cfg : Config) (h : List HostEvent) (t : State), Reaches (State.resetOf cfg h) t → MachineInv t
end

