-- ==== Sys2Proof/Laws/Cells.lean ====
section
/-! SUPPORT. The laws of cells: a read after a write, the canonical form kept by every write, and bounds. -/

namespace Sys2Proof.Machine

@[simp] theorem Cells.read_nil (a : Nat) : Cells.read [] a = .empty := rfl

@[simp] theorem Cells.erase_nil (a : Nat) : Cells.erase [] a = [] := rfl

theorem Cells.erase_cons (b : Nat) (u : Value) (c : Cells) (a : Nat) :
    Cells.erase ((b, u) :: c) a = if b = a then Cells.erase c a else (b, u) :: Cells.erase c a := by
  by_cases h : b = a <;> simp [Cells.erase, h]

/-- Reading after an entry was taken out: Empty there, every other cell as before. -/
theorem Cells.read_erase (c : Cells) (a b : Nat) :
    Cells.read (Cells.erase c a) b = if b = a then .empty else Cells.read c b := by
  induction c with
  | nil => simp
  | cons p rest ih =>
    obtain ⟨k, u⟩ := p
    by_cases hk : k = a <;> by_cases hb : b = a <;> by_cases hkb : k = b <;>
      simp_all [Cells.erase_cons, Cells.read]

/-- Reading after an entry was put into a list that had none for its number. -/
theorem Cells.read_insert (c : Cells) (a b : Nat) (v : Value) (h : Cells.read c a = .empty)
    (hn : ∀ p ∈ c, p.1 ≠ a) :
    Cells.read (Cells.insert c a v) b = if b = a then v else Cells.read c b := by
  induction c with
  | nil => by_cases hb : a = b <;> simp [Cells.insert, Cells.read, hb, eq_comm]
  | cons p rest ih =>
    obtain ⟨k, u⟩ := p
    have hk : k ≠ a := hn (k, u) (by simp)
    have hrest : ∀ p ∈ rest, p.1 ≠ a := fun p hp => hn p (by simp [hp])
    have hread : Cells.read rest a = .empty := by simpa [Cells.read, hk] using h
    unfold Cells.insert
    split
    · by_cases hb : b = a
      · simp [Cells.read, hb]
      · simp [Cells.read, hb, Ne.symm hb]
    · by_cases hkb : k = b
      · have : b ≠ a := hkb ▸ hk
        simp [Cells.read, hkb, this]
      · simp [Cells.read, hkb, ih hread hrest]

theorem Cells.erase_ne (c : Cells) (a : Nat) : ∀ p ∈ Cells.erase c a, p.1 ≠ a := by
  intro p hp
  simpa [Cells.erase] using (List.mem_filter.mp hp).2

/-- A read after a write: the value written at its number, every other cell as before, of any list of cells. -/
theorem Cells.read_write (c : Cells) (a b : Nat) (v : Value) :
    Cells.read (Cells.write c a v) b = if b = a then v else Cells.read c b := by
  have hi : Cells.read (Cells.insert (Cells.erase c a) a v) b = if b = a then v else Cells.read c b := by
    rw [Cells.read_insert _ _ _ _ (by simp [Cells.read_erase]) (Cells.erase_ne c a), Cells.read_erase]
    by_cases hb : b = a <;> simp [hb]
  cases v with
  | empty => simpa [Cells.write] using Cells.read_erase c a b
  | int n => simpa [Cells.write] using hi
  | text t => simpa [Cells.write] using hi
  | instr w => simpa [Cells.write] using hi

@[simp] theorem Cells.read_write_same (c : Cells) (a : Nat) (v : Value) : Cells.read (Cells.write c a v) a = v := by
  simp [Cells.read_write]

theorem Cells.read_write_other (c : Cells) {a b : Nat} (v : Value) (h : b ≠ a) :
    Cells.read (Cells.write c a v) b = Cells.read c b := by simp [Cells.read_write, h]

/-! ## The canonical form -/

theorem Cells.canonicalAbove_mono {c : Cells} {lo hi : Nat} (h : lo ≤ hi) (hc : Cells.canonicalAbove hi c = true) :
    Cells.canonicalAbove lo c = true := by
  cases c with
  | nil => rfl
  | cons p rest =>
    simp only [Cells.canonicalAbove, Bool.and_eq_true, decide_eq_true_eq] at hc ⊢
    exact ⟨⟨lt_of_le_of_lt h hc.1.1, hc.1.2⟩, hc.2⟩

theorem Cells.canonicalAbove_erase {c : Cells} {lo : Nat} (a : Nat) (hc : Cells.canonicalAbove lo c = true) :
    Cells.canonicalAbove lo (Cells.erase c a) = true := by
  induction c generalizing lo with
  | nil => rfl
  | cons p rest ih =>
    obtain ⟨k, u⟩ := p
    simp only [Cells.canonicalAbove, Bool.and_eq_true, decide_eq_true_eq] at hc
    rw [Cells.erase_cons]
    split
    · exact ih (Cells.canonicalAbove_mono (le_of_lt hc.1.1) hc.2)
    · simp only [Cells.canonicalAbove, Bool.and_eq_true, decide_eq_true_eq]
      exact ⟨hc.1, ih hc.2⟩

theorem Cells.canonicalAbove_insert {c : Cells} {lo : Nat} (a : Nat) (v : Value) (hv : v ≠ .empty) (hlo : lo < a)
    (hn : ∀ p ∈ c, p.1 ≠ a) (hc : Cells.canonicalAbove lo c = true) :
    Cells.canonicalAbove lo (Cells.insert c a v) = true := by
  induction c generalizing lo with
  | nil => simp [Cells.insert, Cells.canonicalAbove, hlo, hv]
  | cons p rest ih =>
    obtain ⟨k, u⟩ := p
    simp only [Cells.canonicalAbove, Bool.and_eq_true, decide_eq_true_eq] at hc
    have hk : k ≠ a := hn (k, u) (by simp)
    unfold Cells.insert
    split
    · rename_i hak
      simp only [Cells.canonicalAbove, Bool.and_eq_true, decide_eq_true_eq, bne_iff_ne]
      exact ⟨⟨hlo, hv⟩, ⟨hak, by simpa using hc.1.2⟩, hc.2⟩
    · simp only [Cells.canonicalAbove, Bool.and_eq_true, decide_eq_true_eq]
      exact ⟨hc.1, ih (by omega) (fun p hp => hn p (by simp [hp])) hc.2⟩

theorem Cells.canonical_of_above {c : Cells} {lo : Nat} (h : Cells.canonicalAbove lo c = true) :
    Cells.canonical c = true := by
  cases c with
  | nil => rfl
  | cons p rest =>
    simp only [Cells.canonicalAbove, Cells.canonical, Bool.and_eq_true] at h ⊢
    exact ⟨h.1.2, h.2⟩

theorem Cells.canonical_erase {c : Cells} (a : Nat) (hc : Cells.canonical c = true) :
    Cells.canonical (Cells.erase c a) = true := by
  cases c with
  | nil => rfl
  | cons p rest =>
    obtain ⟨k, u⟩ := p
    simp only [Cells.canonical, Bool.and_eq_true] at hc
    rw [Cells.erase_cons]
    split
    · exact Cells.canonical_of_above (Cells.canonicalAbove_erase a hc.2)
    · simp only [Cells.canonical, Bool.and_eq_true]
      exact ⟨hc.1, Cells.canonicalAbove_erase a hc.2⟩

theorem Cells.canonical_insert {c : Cells} (a : Nat) (v : Value) (hv : v ≠ .empty) (hn : ∀ p ∈ c, p.1 ≠ a)
    (hc : Cells.canonical c = true) : Cells.canonical (Cells.insert c a v) = true := by
  cases c with
  | nil => simp [Cells.insert, Cells.canonical, Cells.canonicalAbove, hv]
  | cons p rest =>
    obtain ⟨k, u⟩ := p
    simp only [Cells.canonical, Bool.and_eq_true] at hc
    have hk : k ≠ a := hn (k, u) (by simp)
    unfold Cells.insert
    split
    · rename_i hak
      simp only [Cells.canonical, Cells.canonicalAbove, Bool.and_eq_true, decide_eq_true_eq, bne_iff_ne]
      exact ⟨hv, ⟨hak, by simpa using hc.1⟩, hc.2⟩
    · simp only [Cells.canonical, Bool.and_eq_true]
      exact ⟨hc.1, Cells.canonicalAbove_insert a v hv (by omega) (fun p hp => hn p (by simp [hp])) hc.2⟩

/-- Every write keeps the canonical form. -/
theorem Cells.canonical_write {c : Cells} (a : Nat) (v : Value) (hc : Cells.canonical c = true) :
    Cells.canonical (Cells.write c a v) = true := by
  have he := Cells.canonical_erase a hc
  have hn := Cells.erase_ne c a
  cases v with
  | empty => exact he
  | int n => exact Cells.canonical_insert a _ (by simp) hn he
  | text t => exact Cells.canonical_insert a _ (by simp) hn he
  | instr w => exact Cells.canonical_insert a _ (by simp) hn he

/-- Every write keeps the memory's canonical form. -/
theorem Memory.wf_write {m : Memory} (a : Nat) (v : Value) (h : Memory.wf m = true) :
    Memory.wf (Cells.write m a v) = true := Cells.canonical_write a v h

/-- Every write keeps the register file's canonical form. -/
theorem RegFile.wf_write {r : RegFile} (i : Nat) (v : Value) (h : RegFile.wf r = true) :
    RegFile.wf (Cells.write r i v) = true := Cells.canonical_write i v h

/-- Both arrays of the reset state are in canonical form. -/
theorem State.reset_wf : Memory.wf State.reset.mem = true ∧ RegFile.wf State.reset.regs = true := ⟨rfl, rfl⟩

/-! ## Bounds -/

theorem Cells.below_iff (n : Nat) (c : Cells) : Cells.below n c = true ↔ ∀ p ∈ c, p.1 < n := by
  simp [Cells.below]

theorem Cells.mem_insert {c : Cells} {a : Nat} {v : Value} {p : Nat × Value} (h : p ∈ Cells.insert c a v) :
    p = (a, v) ∨ p ∈ c := by
  induction c with
  | nil => simpa [Cells.insert] using h
  | cons q rest ih =>
    obtain ⟨k, u⟩ := q
    unfold Cells.insert at h
    split at h
    · simpa using h
    · rcases List.mem_cons.mp h with h | h
      · exact .inr (by simp [h])
      · exact (ih h).imp id (fun h => List.mem_cons_of_mem _ h)

/-- A write below the bound keeps every number below it. -/
theorem Cells.below_write {c : Cells} {n a : Nat} (v : Value) (ha : a < n) (hc : Cells.below n c = true) :
    Cells.below n (Cells.write c a v) = true := by
  rw [Cells.below_iff] at hc ⊢
  have he : ∀ p ∈ Cells.erase c a, p.1 < n := fun p hp => hc p (List.mem_filter.mp hp).1
  have hi : ∀ p ∈ Cells.insert (Cells.erase c a) a v, p.1 < n := fun p hp => by
    rcases Cells.mem_insert hp with h | h
    · simpa [h] using ha
    · exact he p h
  cases v with
  | empty => exact he
  | int n => exact hi
  | text t => exact hi
  | instr w => exact hi

/-! ## Raw reads after raw writes of a state -/

theorem State.reg_setReg (s : State) (i j : Nat) (v : Value) :
    (s.setReg i v).reg j = if j = i then v else s.reg j := Cells.read_write s.regs i j v

theorem State.cell_setCell (s : State) (a b : Nat) (v : Value) :
    (s.setCell a v).cell b = if b = a then v else s.cell b := Cells.read_write s.mem a b v

@[simp] theorem State.reg_setReg_same (s : State) (i : Nat) (v : Value) : (s.setReg i v).reg i = v := by
  simp [State.reg_setReg]

@[simp] theorem State.cell_setCell_same (s : State) (a : Nat) (v : Value) : (s.setCell a v).cell a = v := by
  simp [State.cell_setCell]

end Sys2Proof.Machine
end

