-- ==== Sys2Proof/Laws/Decode.lean ====
section
/-! SUPPORT. The fields of a packed word, the opcode map read both ways, and when the decoder accepts. -/

namespace Sys2Proof

/-- An append as a sum. -/
theorem append_toNat {m n : Nat} (x : BitVec m) (y : BitVec n) : (x ++ y).toNat = 2 ^ n * x.toNat + y.toNat := by
  rw [BitVec.toNat_append, ← Nat.shiftLeft_add_eq_or_of_lt y.isLt, Nat.shiftLeft_eq, Nat.mul_comm]

/-- A packed word as a sum (R79). -/
theorem packWord_toNat (h a b c : BitVec 32) :
    (packWord h a b c).toNat = h.toNat + 2 ^ 32 * a.toNat + 2 ^ 64 * b.toNat + 2 ^ 96 * c.toNat := by
  unfold packWord
  rw [append_toNat, append_toNat, append_toNat]
  omega

/-- A field as a quotient and a remainder. -/
theorem extract_toNat {m : Nat} (x : BitVec m) (lo n : Nat) :
    (x.extractLsb' lo n).toNat = x.toNat / 2 ^ lo % 2 ^ n := by
  rw [BitVec.extractLsb'_toNat, Nat.shiftRight_eq_div_pow]

@[simp] theorem opField_packWord (h a b c : BitVec 32) : opField (packWord h a b c) = h.extractLsb' 0 8 := by
  apply BitVec.eq_of_toNat_eq
  simp only [opField, extract_toNat, packWord_toNat]
  omega

@[simp] theorem kField_packWord (h a b c : BitVec 32) : kField (packWord h a b c) = h.extractLsb' 8 2 := by
  apply BitVec.eq_of_toNat_eq
  simp only [kField, extract_toNat, packWord_toNat]
  omega

@[simp] theorem rsvField_packWord (h a b c : BitVec 32) : rsvField (packWord h a b c) = h.extractLsb' 10 22 := by
  apply BitVec.eq_of_toNat_eq
  simp only [rsvField, extract_toNat, packWord_toNat]
  omega

@[simp] theorem fieldA_packWord (h a b c : BitVec 32) : fieldA (packWord h a b c) = a := by
  apply BitVec.eq_of_toNat_eq
  simp only [fieldA, extract_toNat, packWord_toNat]
  omega

@[simp] theorem fieldB_packWord (h a b c : BitVec 32) : fieldB (packWord h a b c) = b := by
  apply BitVec.eq_of_toNat_eq
  simp only [fieldB, extract_toNat, packWord_toNat]
  omega

@[simp] theorem fieldC_packWord (h a b c : BitVec 32) : fieldC (packWord h a b c) = c := by
  apply BitVec.eq_of_toNat_eq
  simp only [fieldC, extract_toNat, packWord_toNat]
  omega

@[simp] theorem header_op (o : Opcode) (k : BitVec 2) : (header o k).extractLsb' 0 8 = o.code := by
  cases o <;> revert k <;> decide

@[simp] theorem header_k (o : Opcode) (k : BitVec 2) : (header o k).extractLsb' 8 2 = k := by
  cases o <;> revert k <;> decide

@[simp] theorem header_rsv (o : Opcode) (k : BitVec 2) : (header o k).extractLsb' 10 22 = 0#22 := by
  cases o <;> revert k <;> decide

/-- The opcode map read both ways (R80). -/
@[simp] theorem Opcode.ofByte_code (o : Opcode) : Opcode.ofByte o.code = some o := by cases o <;> rfl

/-- The only byte of an opcode is its code (R80, R85). -/
theorem Opcode.code_of_ofByte {b : BitVec 8} {o : Opcode} (h : Opcode.ofByte b = some o) : b = o.code := by
  revert h
  revert b
  cases o <;> decide

/-- The decoder's answer on a word of a known opcode: the first failed check's name, or the assembled instruction. -/
theorem decode_of_opcode {w : InstrWord} {o : Opcode} (h : Opcode.ofByte (opField w) = some o) :
    decode w =
      if rsvZero w = false then .error .rsvNonzero
      else if kLegal o w = false then .error .kIllegal
      else if directOk o w = false then .error .notDirect
      else if unusedZero o w = false then .error .unusedNonzero
      else assemble o w := by
  simp [decode, h]

end Sys2Proof
end

