-- ==== Sys2Proof/Laws/State.lean ====
section
/-! SUPPORT. The small lemmas of the state's updates: one for each field and update, true by rfl, so that no proof unfolds
a record update; and raw reads (`State.reg`, `State.cell`) after each update that leaves them alone. -/

namespace Sys2Proof.Machine

/-! `State.setReg` -/

@[simp] theorem State.setReg_cfg (s : State) (i : Nat) (v : Value) : (s.setReg i v).cfg = s.cfg := rfl
@[simp] theorem State.setReg_regs (s : State) (i : Nat) (v : Value) : (s.setReg i v).regs = Cells.write s.regs i v := rfl
@[simp] theorem State.setReg_pc (s : State) (i : Nat) (v : Value) : (s.setReg i v).pc = s.pc := rfl
@[simp] theorem State.setReg_flag (s : State) (i : Nat) (v : Value) : (s.setReg i v).flag = s.flag := rfl
@[simp] theorem State.setReg_mem (s : State) (i : Nat) (v : Value) : (s.setReg i v).mem = s.mem := rfl
@[simp] theorem State.setReg_fsm (s : State) (i : Nat) (v : Value) : (s.setReg i v).fsm = s.fsm := rfl
@[simp] theorem State.setReg_faultCause (s : State) (i : Nat) (v : Value) : (s.setReg i v).faultCause = s.faultCause := rfl
@[simp] theorem State.setReg_faultPc (s : State) (i : Nat) (v : Value) : (s.setReg i v).faultPc = s.faultPc := rfl
@[simp] theorem State.setReg_faultInfo (s : State) (i : Nat) (v : Value) : (s.setReg i v).faultInfo = s.faultInfo := rfl
@[simp] theorem State.setReg_curPc (s : State) (i : Nat) (v : Value) : (s.setReg i v).curPc = s.curPc := rfl
@[simp] theorem State.setReg_inAddr (s : State) (i : Nat) (v : Value) : (s.setReg i v).inAddr = s.inAddr := rfl
@[simp] theorem State.setReg_output (s : State) (i : Nat) (v : Value) : (s.setReg i v).output = s.output := rfl
@[simp] theorem State.setReg_host (s : State) (i : Nat) (v : Value) : (s.setReg i v).host = s.host := rfl
@[simp] theorem State.setReg_cell (s : State) (i : Nat) (v : Value) (j : Nat) : (s.setReg i v).cell j = s.cell j := rfl
@[simp] theorem State.setReg_inMem (s : State) (i : Nat) (v : Value) (j : Int) : (s.setReg i v).inMem j = s.inMem j := rfl

/-! `State.setCell` -/

@[simp] theorem State.setCell_cfg (s : State) (a : Nat) (v : Value) : (s.setCell a v).cfg = s.cfg := rfl
@[simp] theorem State.setCell_regs (s : State) (a : Nat) (v : Value) : (s.setCell a v).regs = s.regs := rfl
@[simp] theorem State.setCell_pc (s : State) (a : Nat) (v : Value) : (s.setCell a v).pc = s.pc := rfl
@[simp] theorem State.setCell_flag (s : State) (a : Nat) (v : Value) : (s.setCell a v).flag = s.flag := rfl
@[simp] theorem State.setCell_mem (s : State) (a : Nat) (v : Value) : (s.setCell a v).mem = Cells.write s.mem a v := rfl
@[simp] theorem State.setCell_fsm (s : State) (a : Nat) (v : Value) : (s.setCell a v).fsm = s.fsm := rfl
@[simp] theorem State.setCell_faultCause (s : State) (a : Nat) (v : Value) : (s.setCell a v).faultCause = s.faultCause := rfl
@[simp] theorem State.setCell_faultPc (s : State) (a : Nat) (v : Value) : (s.setCell a v).faultPc = s.faultPc := rfl
@[simp] theorem State.setCell_faultInfo (s : State) (a : Nat) (v : Value) : (s.setCell a v).faultInfo = s.faultInfo := rfl
@[simp] theorem State.setCell_curPc (s : State) (a : Nat) (v : Value) : (s.setCell a v).curPc = s.curPc := rfl
@[simp] theorem State.setCell_inAddr (s : State) (a : Nat) (v : Value) : (s.setCell a v).inAddr = s.inAddr := rfl
@[simp] theorem State.setCell_output (s : State) (a : Nat) (v : Value) : (s.setCell a v).output = s.output := rfl
@[simp] theorem State.setCell_host (s : State) (a : Nat) (v : Value) : (s.setCell a v).host = s.host := rfl
@[simp] theorem State.setCell_reg (s : State) (a : Nat) (v : Value) (j : Nat) : (s.setCell a v).reg j = s.reg j := rfl
@[simp] theorem State.setCell_inMem (s : State) (a : Nat) (v : Value) (j : Int) : (s.setCell a v).inMem j = s.inMem j := rfl

/-! `State.setPc` -/

@[simp] theorem State.setPc_cfg (s : State) (t : Word) : (s.setPc t).cfg = s.cfg := rfl
@[simp] theorem State.setPc_regs (s : State) (t : Word) : (s.setPc t).regs = s.regs := rfl
@[simp] theorem State.setPc_pc (s : State) (t : Word) : (s.setPc t).pc = t := rfl
@[simp] theorem State.setPc_flag (s : State) (t : Word) : (s.setPc t).flag = s.flag := rfl
@[simp] theorem State.setPc_mem (s : State) (t : Word) : (s.setPc t).mem = s.mem := rfl
@[simp] theorem State.setPc_fsm (s : State) (t : Word) : (s.setPc t).fsm = s.fsm := rfl
@[simp] theorem State.setPc_faultCause (s : State) (t : Word) : (s.setPc t).faultCause = s.faultCause := rfl
@[simp] theorem State.setPc_faultPc (s : State) (t : Word) : (s.setPc t).faultPc = s.faultPc := rfl
@[simp] theorem State.setPc_faultInfo (s : State) (t : Word) : (s.setPc t).faultInfo = s.faultInfo := rfl
@[simp] theorem State.setPc_curPc (s : State) (t : Word) : (s.setPc t).curPc = s.curPc := rfl
@[simp] theorem State.setPc_inAddr (s : State) (t : Word) : (s.setPc t).inAddr = s.inAddr := rfl
@[simp] theorem State.setPc_output (s : State) (t : Word) : (s.setPc t).output = s.output := rfl
@[simp] theorem State.setPc_host (s : State) (t : Word) : (s.setPc t).host = s.host := rfl
@[simp] theorem State.setPc_reg (s : State) (t : Word) (j : Nat) : (s.setPc t).reg j = s.reg j := rfl
@[simp] theorem State.setPc_cell (s : State) (t : Word) (j : Nat) : (s.setPc t).cell j = s.cell j := rfl
@[simp] theorem State.setPc_inMem (s : State) (t : Word) (j : Int) : (s.setPc t).inMem j = s.inMem j := rfl

/-! `State.setFlag` -/

@[simp] theorem State.setFlag_cfg (s : State) (b : Bool) : (s.setFlag b).cfg = s.cfg := rfl
@[simp] theorem State.setFlag_regs (s : State) (b : Bool) : (s.setFlag b).regs = s.regs := rfl
@[simp] theorem State.setFlag_pc (s : State) (b : Bool) : (s.setFlag b).pc = s.pc := rfl
@[simp] theorem State.setFlag_flag (s : State) (b : Bool) : (s.setFlag b).flag = b := rfl
@[simp] theorem State.setFlag_mem (s : State) (b : Bool) : (s.setFlag b).mem = s.mem := rfl
@[simp] theorem State.setFlag_fsm (s : State) (b : Bool) : (s.setFlag b).fsm = s.fsm := rfl
@[simp] theorem State.setFlag_faultCause (s : State) (b : Bool) : (s.setFlag b).faultCause = s.faultCause := rfl
@[simp] theorem State.setFlag_faultPc (s : State) (b : Bool) : (s.setFlag b).faultPc = s.faultPc := rfl
@[simp] theorem State.setFlag_faultInfo (s : State) (b : Bool) : (s.setFlag b).faultInfo = s.faultInfo := rfl
@[simp] theorem State.setFlag_curPc (s : State) (b : Bool) : (s.setFlag b).curPc = s.curPc := rfl
@[simp] theorem State.setFlag_inAddr (s : State) (b : Bool) : (s.setFlag b).inAddr = s.inAddr := rfl
@[simp] theorem State.setFlag_output (s : State) (b : Bool) : (s.setFlag b).output = s.output := rfl
@[simp] theorem State.setFlag_host (s : State) (b : Bool) : (s.setFlag b).host = s.host := rfl
@[simp] theorem State.setFlag_reg (s : State) (b : Bool) (j : Nat) : (s.setFlag b).reg j = s.reg j := rfl
@[simp] theorem State.setFlag_cell (s : State) (b : Bool) (j : Nat) : (s.setFlag b).cell j = s.cell j := rfl
@[simp] theorem State.setFlag_inMem (s : State) (b : Bool) (j : Int) : (s.setFlag b).inMem j = s.inMem j := rfl

/-! `State.setFsm` -/

@[simp] theorem State.setFsm_cfg (s : State) (f : Fsm) : (s.setFsm f).cfg = s.cfg := rfl
@[simp] theorem State.setFsm_regs (s : State) (f : Fsm) : (s.setFsm f).regs = s.regs := rfl
@[simp] theorem State.setFsm_pc (s : State) (f : Fsm) : (s.setFsm f).pc = s.pc := rfl
@[simp] theorem State.setFsm_flag (s : State) (f : Fsm) : (s.setFsm f).flag = s.flag := rfl
@[simp] theorem State.setFsm_mem (s : State) (f : Fsm) : (s.setFsm f).mem = s.mem := rfl
@[simp] theorem State.setFsm_fsm (s : State) (f : Fsm) : (s.setFsm f).fsm = f := rfl
@[simp] theorem State.setFsm_faultCause (s : State) (f : Fsm) : (s.setFsm f).faultCause = s.faultCause := rfl
@[simp] theorem State.setFsm_faultPc (s : State) (f : Fsm) : (s.setFsm f).faultPc = s.faultPc := rfl
@[simp] theorem State.setFsm_faultInfo (s : State) (f : Fsm) : (s.setFsm f).faultInfo = s.faultInfo := rfl
@[simp] theorem State.setFsm_curPc (s : State) (f : Fsm) : (s.setFsm f).curPc = s.curPc := rfl
@[simp] theorem State.setFsm_inAddr (s : State) (f : Fsm) : (s.setFsm f).inAddr = s.inAddr := rfl
@[simp] theorem State.setFsm_output (s : State) (f : Fsm) : (s.setFsm f).output = s.output := rfl
@[simp] theorem State.setFsm_host (s : State) (f : Fsm) : (s.setFsm f).host = s.host := rfl
@[simp] theorem State.setFsm_reg (s : State) (f : Fsm) (j : Nat) : (s.setFsm f).reg j = s.reg j := rfl
@[simp] theorem State.setFsm_cell (s : State) (f : Fsm) (j : Nat) : (s.setFsm f).cell j = s.cell j := rfl
@[simp] theorem State.setFsm_inMem (s : State) (f : Fsm) (j : Int) : (s.setFsm f).inMem j = s.inMem j := rfl

/-! `State.setCurPc` -/

@[simp] theorem State.setCurPc_cfg (s : State) (t : Word) : (s.setCurPc t).cfg = s.cfg := rfl
@[simp] theorem State.setCurPc_regs (s : State) (t : Word) : (s.setCurPc t).regs = s.regs := rfl
@[simp] theorem State.setCurPc_pc (s : State) (t : Word) : (s.setCurPc t).pc = s.pc := rfl
@[simp] theorem State.setCurPc_flag (s : State) (t : Word) : (s.setCurPc t).flag = s.flag := rfl
@[simp] theorem State.setCurPc_mem (s : State) (t : Word) : (s.setCurPc t).mem = s.mem := rfl
@[simp] theorem State.setCurPc_fsm (s : State) (t : Word) : (s.setCurPc t).fsm = s.fsm := rfl
@[simp] theorem State.setCurPc_faultCause (s : State) (t : Word) : (s.setCurPc t).faultCause = s.faultCause := rfl
@[simp] theorem State.setCurPc_faultPc (s : State) (t : Word) : (s.setCurPc t).faultPc = s.faultPc := rfl
@[simp] theorem State.setCurPc_faultInfo (s : State) (t : Word) : (s.setCurPc t).faultInfo = s.faultInfo := rfl
@[simp] theorem State.setCurPc_curPc (s : State) (t : Word) : (s.setCurPc t).curPc = t := rfl
@[simp] theorem State.setCurPc_inAddr (s : State) (t : Word) : (s.setCurPc t).inAddr = s.inAddr := rfl
@[simp] theorem State.setCurPc_output (s : State) (t : Word) : (s.setCurPc t).output = s.output := rfl
@[simp] theorem State.setCurPc_host (s : State) (t : Word) : (s.setCurPc t).host = s.host := rfl
@[simp] theorem State.setCurPc_reg (s : State) (t : Word) (j : Nat) : (s.setCurPc t).reg j = s.reg j := rfl
@[simp] theorem State.setCurPc_cell (s : State) (t : Word) (j : Nat) : (s.setCurPc t).cell j = s.cell j := rfl
@[simp] theorem State.setCurPc_inMem (s : State) (t : Word) (j : Int) : (s.setCurPc t).inMem j = s.inMem j := rfl

/-! `State.setInAddr` -/

@[simp] theorem State.setInAddr_cfg (s : State) (t : Word) : (s.setInAddr t).cfg = s.cfg := rfl
@[simp] theorem State.setInAddr_regs (s : State) (t : Word) : (s.setInAddr t).regs = s.regs := rfl
@[simp] theorem State.setInAddr_pc (s : State) (t : Word) : (s.setInAddr t).pc = s.pc := rfl
@[simp] theorem State.setInAddr_flag (s : State) (t : Word) : (s.setInAddr t).flag = s.flag := rfl
@[simp] theorem State.setInAddr_mem (s : State) (t : Word) : (s.setInAddr t).mem = s.mem := rfl
@[simp] theorem State.setInAddr_fsm (s : State) (t : Word) : (s.setInAddr t).fsm = s.fsm := rfl
@[simp] theorem State.setInAddr_faultCause (s : State) (t : Word) : (s.setInAddr t).faultCause = s.faultCause := rfl
@[simp] theorem State.setInAddr_faultPc (s : State) (t : Word) : (s.setInAddr t).faultPc = s.faultPc := rfl
@[simp] theorem State.setInAddr_faultInfo (s : State) (t : Word) : (s.setInAddr t).faultInfo = s.faultInfo := rfl
@[simp] theorem State.setInAddr_curPc (s : State) (t : Word) : (s.setInAddr t).curPc = s.curPc := rfl
@[simp] theorem State.setInAddr_inAddr (s : State) (t : Word) : (s.setInAddr t).inAddr = t := rfl
@[simp] theorem State.setInAddr_output (s : State) (t : Word) : (s.setInAddr t).output = s.output := rfl
@[simp] theorem State.setInAddr_host (s : State) (t : Word) : (s.setInAddr t).host = s.host := rfl
@[simp] theorem State.setInAddr_reg (s : State) (t : Word) (j : Nat) : (s.setInAddr t).reg j = s.reg j := rfl
@[simp] theorem State.setInAddr_cell (s : State) (t : Word) (j : Nat) : (s.setInAddr t).cell j = s.cell j := rfl
@[simp] theorem State.setInAddr_inMem (s : State) (t : Word) (j : Int) : (s.setInAddr t).inMem j = s.inMem j := rfl

/-! `State.emit` -/

@[simp] theorem State.emit_cfg (s : State) (v : Value) : (s.emit v).cfg = s.cfg := rfl
@[simp] theorem State.emit_regs (s : State) (v : Value) : (s.emit v).regs = s.regs := rfl
@[simp] theorem State.emit_pc (s : State) (v : Value) : (s.emit v).pc = s.pc := rfl
@[simp] theorem State.emit_flag (s : State) (v : Value) : (s.emit v).flag = s.flag := rfl
@[simp] theorem State.emit_mem (s : State) (v : Value) : (s.emit v).mem = s.mem := rfl
@[simp] theorem State.emit_fsm (s : State) (v : Value) : (s.emit v).fsm = s.fsm := rfl
@[simp] theorem State.emit_faultCause (s : State) (v : Value) : (s.emit v).faultCause = s.faultCause := rfl
@[simp] theorem State.emit_faultPc (s : State) (v : Value) : (s.emit v).faultPc = s.faultPc := rfl
@[simp] theorem State.emit_faultInfo (s : State) (v : Value) : (s.emit v).faultInfo = s.faultInfo := rfl
@[simp] theorem State.emit_curPc (s : State) (v : Value) : (s.emit v).curPc = s.curPc := rfl
@[simp] theorem State.emit_inAddr (s : State) (v : Value) : (s.emit v).inAddr = s.inAddr := rfl
@[simp] theorem State.emit_output (s : State) (v : Value) : (s.emit v).output = s.output ++ [v] := rfl
@[simp] theorem State.emit_host (s : State) (v : Value) : (s.emit v).host = s.host := rfl
@[simp] theorem State.emit_reg (s : State) (v : Value) (j : Nat) : (s.emit v).reg j = s.reg j := rfl
@[simp] theorem State.emit_cell (s : State) (v : Value) (j : Nat) : (s.emit v).cell j = s.cell j := rfl
@[simp] theorem State.emit_inMem (s : State) (v : Value) (j : Int) : (s.emit v).inMem j = s.inMem j := rfl

/-! `State.setHost` -/

@[simp] theorem State.setHost_cfg (s : State) (h : List HostEvent) : (s.setHost h).cfg = s.cfg := rfl
@[simp] theorem State.setHost_regs (s : State) (h : List HostEvent) : (s.setHost h).regs = s.regs := rfl
@[simp] theorem State.setHost_pc (s : State) (h : List HostEvent) : (s.setHost h).pc = s.pc := rfl
@[simp] theorem State.setHost_flag (s : State) (h : List HostEvent) : (s.setHost h).flag = s.flag := rfl
@[simp] theorem State.setHost_mem (s : State) (h : List HostEvent) : (s.setHost h).mem = s.mem := rfl
@[simp] theorem State.setHost_fsm (s : State) (h : List HostEvent) : (s.setHost h).fsm = s.fsm := rfl
@[simp] theorem State.setHost_faultCause (s : State) (h : List HostEvent) : (s.setHost h).faultCause = s.faultCause := rfl
@[simp] theorem State.setHost_faultPc (s : State) (h : List HostEvent) : (s.setHost h).faultPc = s.faultPc := rfl
@[simp] theorem State.setHost_faultInfo (s : State) (h : List HostEvent) : (s.setHost h).faultInfo = s.faultInfo := rfl
@[simp] theorem State.setHost_curPc (s : State) (h : List HostEvent) : (s.setHost h).curPc = s.curPc := rfl
@[simp] theorem State.setHost_inAddr (s : State) (h : List HostEvent) : (s.setHost h).inAddr = s.inAddr := rfl
@[simp] theorem State.setHost_output (s : State) (h : List HostEvent) : (s.setHost h).output = s.output := rfl
@[simp] theorem State.setHost_host (s : State) (h : List HostEvent) : (s.setHost h).host = h := rfl
@[simp] theorem State.setHost_reg (s : State) (h : List HostEvent) (j : Nat) : (s.setHost h).reg j = s.reg j := rfl
@[simp] theorem State.setHost_cell (s : State) (h : List HostEvent) (j : Nat) : (s.setHost h).cell j = s.cell j := rfl
@[simp] theorem State.setHost_inMem (s : State) (h : List HostEvent) (j : Int) : (s.setHost h).inMem j = s.inMem j := rfl

/-! `enterFaulted` -/

@[simp] theorem enterFaulted_cfg (s : State) (r : Raise) : (enterFaulted s r).cfg = s.cfg := rfl
@[simp] theorem enterFaulted_regs (s : State) (r : Raise) : (enterFaulted s r).regs = s.regs := rfl
@[simp] theorem enterFaulted_pc (s : State) (r : Raise) : (enterFaulted s r).pc = s.pc := rfl
@[simp] theorem enterFaulted_flag (s : State) (r : Raise) : (enterFaulted s r).flag = s.flag := rfl
@[simp] theorem enterFaulted_mem (s : State) (r : Raise) : (enterFaulted s r).mem = s.mem := rfl
@[simp] theorem enterFaulted_fsm (s : State) (r : Raise) : (enterFaulted s r).fsm = .faulted := rfl
@[simp] theorem enterFaulted_faultCause (s : State) (r : Raise) : (enterFaulted s r).faultCause = r.cause := rfl
@[simp] theorem enterFaulted_faultPc (s : State) (r : Raise) : (enterFaulted s r).faultPc = s.curPc := rfl
@[simp] theorem enterFaulted_faultInfo (s : State) (r : Raise) : (enterFaulted s r).faultInfo = BitVec.ofInt 33 r.info := rfl
@[simp] theorem enterFaulted_curPc (s : State) (r : Raise) : (enterFaulted s r).curPc = s.curPc := rfl
@[simp] theorem enterFaulted_inAddr (s : State) (r : Raise) : (enterFaulted s r).inAddr = s.inAddr := rfl
@[simp] theorem enterFaulted_output (s : State) (r : Raise) : (enterFaulted s r).output = s.output := rfl
@[simp] theorem enterFaulted_host (s : State) (r : Raise) : (enterFaulted s r).host = s.host := rfl
@[simp] theorem enterFaulted_reg (s : State) (r : Raise) (j : Nat) : (enterFaulted s r).reg j = s.reg j := rfl
@[simp] theorem enterFaulted_cell (s : State) (r : Raise) (j : Nat) : (enterFaulted s r).cell j = s.cell j := rfl

/-! `resetCore` -/

@[simp] theorem resetCore_cfg (s : State) : (resetCore s).cfg = s.cfg := rfl
@[simp] theorem resetCore_regs (s : State) : (resetCore s).regs = [] := rfl
@[simp] theorem resetCore_pc (s : State) : (resetCore s).pc = 0 := rfl
@[simp] theorem resetCore_flag (s : State) : (resetCore s).flag = false := rfl
@[simp] theorem resetCore_mem (s : State) : (resetCore s).mem = [] := rfl
@[simp] theorem resetCore_fsm (s : State) : (resetCore s).fsm = .load := rfl
@[simp] theorem resetCore_faultCause (s : State) : (resetCore s).faultCause = .none := rfl
@[simp] theorem resetCore_faultPc (s : State) : (resetCore s).faultPc = 0 := rfl
@[simp] theorem resetCore_faultInfo (s : State) : (resetCore s).faultInfo = 0 := rfl
@[simp] theorem resetCore_curPc (s : State) : (resetCore s).curPc = 0 := rfl
@[simp] theorem resetCore_inAddr (s : State) : (resetCore s).inAddr = 0 := rfl
@[simp] theorem resetCore_output (s : State) : (resetCore s).output = [] := rfl
@[simp] theorem resetCore_host (s : State) : (resetCore s).host = s.host := rfl

/-! `latchPc` -/

@[simp] theorem latchPc_cfg (s : State) : (latchPc s).cfg = s.cfg := rfl
@[simp] theorem latchPc_regs (s : State) : (latchPc s).regs = s.regs := rfl
@[simp] theorem latchPc_pc (s : State) : (latchPc s).pc = s.pc := rfl
@[simp] theorem latchPc_flag (s : State) : (latchPc s).flag = s.flag := rfl
@[simp] theorem latchPc_mem (s : State) : (latchPc s).mem = s.mem := rfl
@[simp] theorem latchPc_fsm (s : State) : (latchPc s).fsm = s.fsm := rfl
@[simp] theorem latchPc_faultCause (s : State) : (latchPc s).faultCause = s.faultCause := rfl
@[simp] theorem latchPc_faultPc (s : State) : (latchPc s).faultPc = s.faultPc := rfl
@[simp] theorem latchPc_faultInfo (s : State) : (latchPc s).faultInfo = s.faultInfo := rfl
@[simp] theorem latchPc_curPc (s : State) : (latchPc s).curPc = s.pc := rfl
@[simp] theorem latchPc_inAddr (s : State) : (latchPc s).inAddr = s.inAddr := rfl
@[simp] theorem latchPc_output (s : State) : (latchPc s).output = s.output := rfl
@[simp] theorem latchPc_host (s : State) : (latchPc s).host = s.host := rfl
@[simp] theorem latchPc_reg (s : State) (j : Nat) : (latchPc s).reg j = s.reg j := rfl
@[simp] theorem latchPc_cell (s : State) (j : Nat) : (latchPc s).cell j = s.cell j := rfl
@[simp] theorem latchPc_inMem (s : State) (j : Int) : (latchPc s).inMem j = s.inMem j := rfl

/-! `advancePc` -/

@[simp] theorem advancePc_cfg (s : State) : (advancePc s).cfg = s.cfg := rfl
@[simp] theorem advancePc_regs (s : State) : (advancePc s).regs = s.regs := rfl
@[simp] theorem advancePc_pc (s : State) : (advancePc s).pc = s.pc + 1 := rfl
@[simp] theorem advancePc_flag (s : State) : (advancePc s).flag = s.flag := rfl
@[simp] theorem advancePc_mem (s : State) : (advancePc s).mem = s.mem := rfl
@[simp] theorem advancePc_fsm (s : State) : (advancePc s).fsm = s.fsm := rfl
@[simp] theorem advancePc_faultCause (s : State) : (advancePc s).faultCause = s.faultCause := rfl
@[simp] theorem advancePc_faultPc (s : State) : (advancePc s).faultPc = s.faultPc := rfl
@[simp] theorem advancePc_faultInfo (s : State) : (advancePc s).faultInfo = s.faultInfo := rfl
@[simp] theorem advancePc_curPc (s : State) : (advancePc s).curPc = s.curPc := rfl
@[simp] theorem advancePc_inAddr (s : State) : (advancePc s).inAddr = s.inAddr := rfl
@[simp] theorem advancePc_output (s : State) : (advancePc s).output = s.output := rfl
@[simp] theorem advancePc_host (s : State) : (advancePc s).host = s.host := rfl
@[simp] theorem advancePc_reg (s : State) (j : Nat) : (advancePc s).reg j = s.reg j := rfl
@[simp] theorem advancePc_cell (s : State) (j : Nat) : (advancePc s).cell j = s.cell j := rfl
@[simp] theorem advancePc_inMem (s : State) (j : Int) : (advancePc s).inMem j = s.inMem j := rfl

end Sys2Proof.Machine
end

