-- ==== Sys2Proof/Laws/Ops.lean ====
section
/-! SUPPORT. For each shared operation, what it answers and when: one lemma for its success and one for its fault, so that
no proof unfolds it. -/

namespace Sys2Proof.Machine

/-! ## Sequencing and commit -/

theorem Checked.bind_ok {α β : Type} {x : Checked α} {f : α → Checked β} {b : β} :
    (x >>= f) = .ok b ↔ ∃ a, x = .ok a ∧ f a = .ok b := by
  cases x <;> simp [bind, Except.bind]

theorem Checked.bind_error {α β : Type} {x : Checked α} {f : α → Checked β} {e : Raise} :
    (x >>= f) = .error e ↔ x = .error e ∨ ∃ a, x = .ok a ∧ f a = .error e := by
  cases x <;> simp [bind, Except.bind]

@[simp] theorem Checked.pure_ok {α : Type} {a b : α} : (pure a : Checked α) = .ok b ↔ a = b := by
  simp [pure, Except.pure]

@[simp] theorem Checked.pure_error {α : Type} {a : α} {e : Raise} : ¬ (pure a : Checked α) = .error e := by
  simp [pure, Except.pure]

/-- `commit` always answers a next state: the staged writes, or the entry into FAULTED. -/
theorem commit_next {s t : State} {r : Checked State} :
    commit s r = .next t ↔ r = .ok t ∨ ∃ e, r = .error e ∧ t = enterFaulted s e := by
  cases r <;> simp [commit, eq_comm]

theorem commit_ok {s t : State} {r : Checked State} (h : r = .ok t) : commit s r = .next t := by simp [h, commit]

theorem commit_error {s : State} {r : Checked State} {e : Raise} (h : r = .error e) :
    commit s r = .next (enterFaulted s e) := by simp [h, commit]

/-! ## Numbers -/

theorem word_toInt_bounds (w : Word) : -2147483648 ≤ w.toInt ∧ w.toInt ≤ 2147483647 := by
  have := BitVec.le_toInt w
  have := BitVec.toInt_lt (x := w)
  omega

theorem offset_toInt_bounds (o : BitVec 16) : -32768 ≤ o.toInt ∧ o.toInt ≤ 32767 := by
  have := BitVec.le_toInt o
  have := BitVec.toInt_lt (x := o)
  omega

/-- `wrapW` is congruent to its argument modulo 2^32 (R11). -/
theorem wrapW_toInt_emod (n : Int) : (wrapW n).toInt % 4294967296 = n % 4294967296 := by
  unfold wrapW
  rw [BitVec.toInt_ofInt]
  unfold Int.bmod
  norm_num
  split <;> omega

/-- `wrapW` keeps a number that fits W bits. -/
theorem wrapW_toInt {n : Int} (h : -2147483648 ≤ n) (h' : n < 2147483648) : (wrapW n).toInt = n := by
  unfold wrapW
  rw [BitVec.toInt_ofInt, Int.bmod_eq_of_le] <;> norm_num <;> omega

/-- FAULT_INFO keeps a number that fits W + 1 bits. -/
theorem infoWord_toInt {n : Int} (h : -4294967296 ≤ n) (h' : n < 4294967296) : (BitVec.ofInt 33 n).toInt = n := by
  rw [BitVec.toInt_ofInt, Int.bmod_eq_of_le] <;> norm_num <;> omega

/-! ## Registers -/

theorem regRead_ok {s : State} {i : Nat} {v : Value} : regRead s i = .ok v ↔ Holds s i v := by
  unfold regRead
  split
  · simp; omega
  · split
    · rename_i h1 h2
      simp only [reduceCtorEq, false_iff, not_and, not_not]
      rintro - rfl
      exact h2
    · rename_i h1 h2
      simp only [Except.ok.injEq]
      exact ⟨fun h => ⟨by omega, h, h ▸ h2⟩, fun h => h.2.1⟩

theorem regRead_error {s : State} {i : Nat} {e : Raise} :
    regRead s i = .error e ↔ ReadFault s i e.cause ∧ e.info = i := by
  obtain ⟨c, n⟩ := e
  unfold regRead
  split
  · rename_i h
    simp only [Except.error.injEq, Raise.mk.injEq, ReadFault, h, true_and]
    constructor
    · rintro ⟨rfl, rfl⟩; exact ⟨.inl rfl, rfl⟩
    · rintro ⟨rfl | h', rfl⟩
      · exact ⟨rfl, rfl⟩
      · omega
  · rename_i h
    split
    · rename_i h2
      simp only [Except.error.injEq, Raise.mk.injEq, ReadFault, h, false_and, false_or, h2, true_and, eq_comm (a := n)]
      exact ⟨fun h' => ⟨⟨by omega, h'.1.symm⟩, h'.2⟩, fun h' => ⟨h'.1.2.symm, h'.2⟩⟩
    · rename_i h2
      simp [ReadFault, h2, h]

theorem regWrite_ok {s t : State} {i : Nat} {v : Value} :
    regWrite s i v = .ok t ↔ i < s.cfg.regCount ∧ t = s.setReg i v := by
  unfold regWrite
  split
  · simp; omega
  · simp only [Except.ok.injEq, eq_comm (a := t)]
    exact ⟨fun h => ⟨by omega, h⟩, fun h => h.2⟩

theorem regWrite_error {s : State} {i : Nat} {v : Value} {e : Raise} :
    regWrite s i v = .error e ↔ s.cfg.regCount ≤ i ∧ e = ⟨.regRange, i⟩ := by
  unfold regWrite
  split
  · rename_i h; simp [h, eq_comm]
  · rename_i h; simp [h]

/-! ## Memory -/

theorem State.inMem_iff {s : State} {a : Int} : s.inMem a = true ↔ 0 ≤ a ∧ a < (s.cfg.memSize : Int) := by
  simp [State.inMem]

theorem State.inMem_false_iff {s : State} {a : Int} : s.inMem a = false ↔ OutOfMem s a := by
  rw [← Bool.not_eq_true, State.inMem_iff]; unfold OutOfMem; omega

theorem portRead_some {s : State} {a : Int} {v : Value} :
    s.portRead a = some v ↔ (0 ≤ a ∧ a < (s.cfg.memSize : Int)) ∧ s.cell a.toNat = v := by
  unfold State.portRead
  split
  · rename_i h; simp [State.inMem_iff.mp h]
  · rename_i h; rw [State.inMem_iff] at h; simp [h]

theorem portRead_none {s : State} {a : Int} : s.portRead a = none ↔ OutOfMem s a := by
  unfold State.portRead
  split
  · rename_i h; rw [State.inMem_iff] at h; simp; omega
  · rename_i h; rw [Bool.not_eq_true, State.inMem_false_iff] at h; simp [h]

theorem portWrite_some {s t : State} {a : Int} {v : Value} :
    s.portWrite a v = some t ↔ (0 ≤ a ∧ a < (s.cfg.memSize : Int)) ∧ t = s.setCell a.toNat v := by
  unfold State.portWrite
  split
  · rename_i h; simp [State.inMem_iff.mp h, eq_comm]
  · rename_i h; rw [State.inMem_iff] at h; simp [h]

theorem portWrite_none {s : State} {a : Int} {v : Value} : s.portWrite a v = none ↔ OutOfMem s a := by
  unfold State.portWrite
  split
  · rename_i h; rw [State.inMem_iff] at h; simp; omega
  · rename_i h; rw [Bool.not_eq_true, State.inMem_false_iff] at h; simp [h]

theorem memRead_ok {s : State} {a : Int} {v : Value} : memRead s a = .ok v ↔ CellHolds s a v := by
  unfold memRead
  split
  · rename_i h; rw [portRead_none] at h; simp; omega
  · rename_i u h
    rw [portRead_some] at h
    obtain ⟨hr, rfl⟩ := h
    split
    · rename_i h2
      simp only [reduceCtorEq, false_iff, not_and, not_not]
      rintro - - rfl
      exact h2
    · rename_i h2
      simp only [Except.ok.injEq]
      exact ⟨fun h => ⟨hr.1, hr.2, h, h ▸ h2⟩, fun h => h.2.2.1⟩

theorem memRead_error {s : State} {a : Int} {e : Raise} :
    memRead s a = .error e ↔ CellFault s a e.cause ∧ e.info = a := by
  obtain ⟨c, n⟩ := e
  unfold memRead
  split
  · rename_i h
    rw [portRead_none] at h
    simp only [Except.error.injEq, Raise.mk.injEq, CellFault, h, true_and, eq_comm (a := n)]
    constructor
    · rintro ⟨rfl, rfl⟩; exact ⟨.inl rfl, rfl⟩
    · rintro ⟨rfl | h', rfl⟩
      · exact ⟨rfl, rfl⟩
      · exact absurd h (by unfold OutOfMem; omega)
  · rename_i u h
    rw [portRead_some] at h
    obtain ⟨hr, rfl⟩ := h
    have hno : ¬ OutOfMem s a := by unfold OutOfMem; omega
    split
    · rename_i h2
      simp only [Except.error.injEq, Raise.mk.injEq, CellFault, hno, false_and, false_or, hr, h2, true_and,
        eq_comm (a := n), eq_comm (a := c)]
    · rename_i h2
      simp [CellFault, hno, h2]

theorem memWrite_ok {s t : State} {a : Int} {v : Value} :
    memWrite s a v = .ok t ↔ (0 ≤ a ∧ a < (s.cfg.memSize : Int)) ∧ t = s.setCell a.toNat v := by
  unfold memWrite
  split
  · rename_i h; rw [portWrite_none] at h; simp; omega
  · rename_i u h
    rw [portWrite_some] at h
    simp [h.1, h.2, eq_comm]

theorem memWrite_error {s : State} {a : Int} {v : Value} {e : Raise} :
    memWrite s a v = .error e ↔ OutOfMem s a ∧ e = ⟨.memRange, a⟩ := by
  unfold memWrite
  split
  · rename_i h; rw [portWrite_none] at h; simp [h, eq_comm]
  · rename_i u h
    rw [portWrite_some] at h
    have : ¬ OutOfMem s a := by unfold OutOfMem; omega
    simp [this]

/-! ## Integers -/

theorem expectInt_ok {v : Value} {c : FaultCause} {i : Int} {n : Word} : expectInt v c i = .ok n ↔ v = .int n := by
  cases v <;> simp [expectInt]

theorem expectInt_error {v : Value} {c : FaultCause} {i : Int} {e : Raise} :
    expectInt v c i = .error e ↔ v.isInt = false ∧ e = ⟨c, i⟩ := by
  cases v <;> simp [expectInt, Value.isInt, eq_comm]

/-- The core of `intOperand` and `stackAddress`. -/
theorem readInt_ok {s : State} {i : Nat} {n : Word} :
    (regRead s i >>= fun v => expectInt v .notInteger i) = .ok n ↔ HoldsInt s i n := by
  simp only [Checked.bind_ok, regRead_ok, expectInt_ok]
  constructor
  · rintro ⟨v, hv, rfl⟩; exact ⟨hv.1, hv.2.1⟩
  · rintro ⟨h1, h2⟩; exact ⟨_, ⟨h1, h2, by simp⟩, rfl⟩

theorem readInt_error {s : State} {i : Nat} {e : Raise} :
    (regRead s i >>= fun v => expectInt v .notInteger i) = .error e ↔ IntFault s i e.cause ∧ e.info = i := by
  simp only [Checked.bind_error, regRead_error, regRead_ok, expectInt_error]
  constructor
  · rintro (⟨h, hi⟩ | ⟨v, ⟨h1, rfl, h3⟩, h4, rfl⟩)
    · exact ⟨.inl h, hi⟩
    · exact ⟨.inr ⟨h1, h3, h4, rfl⟩, rfl⟩
  · rintro ⟨h | ⟨h1, h2, h3, h4⟩, hi⟩
    · exact .inl ⟨h, hi⟩
    · refine .inr ⟨_, ⟨h1, rfl, h2⟩, h3, ?_⟩
      cases e; simp_all

theorem intOperand_ok {s : State} {d : Descriptor} {n : Word} :
    intOperand s d = .ok n ↔ HoldsInt s d.idx.toNat n := readInt_ok

theorem intOperand_error {s : State} {d : Descriptor} {e : Raise} :
    intOperand s d = .error e ↔ IntFault s d.idx.toNat e.cause ∧ e.info = d.idx.toNat := readInt_error

theorem stackAddress_ok {s : State} {n : Word} : stackAddress s = .ok n ↔ HoldsInt s s.cfg.spIndex n := readInt_ok

theorem stackAddress_error {s : State} {e : Raise} :
    stackAddress s = .error e ↔ IntFault s s.cfg.spIndex e.cause ∧ e.info = s.cfg.spIndex := readInt_error

/-! ## Operands -/

theorem effectiveAddress_ok {s : State} {d : Descriptor} {a : Int} :
    effectiveAddress s d = .ok a ↔ Points s d a := by
  simp only [effectiveAddress, Checked.bind_ok, Checked.pure_ok, intOperand_ok, Points, eq_comm (b := a)]

theorem effectiveAddress_error {s : State} {d : Descriptor} {e : Raise} :
    effectiveAddress s d = .error e ↔ IntFault s d.idx.toNat e.cause ∧ e.info = d.idx.toNat := by
  simp only [effectiveAddress, Checked.bind_error, intOperand_error, Checked.pure_error, and_false, exists_false, or_false]

theorem resolve_ok {s : State} {d : Descriptor} {v : Value} : resolve s d = .ok v ↔ SourceHolds s d v := by
  unfold resolve SourceHolds
  cases h : d.ind <;> simp [Checked.bind_ok, effectiveAddress_ok, memRead_ok, regRead_ok, regIndex]

theorem resolve_error {s : State} {d : Descriptor} {e : Raise} :
    resolve s d = .error e ↔ SourceFault s d e.cause e.info := by
  unfold resolve SourceFault
  cases h : d.ind
  · simp [regRead_error, regIndex]
  · simp only [if_true, Checked.bind_error, effectiveAddress_error, effectiveAddress_ok, memRead_error, true_and,
      reduceCtorEq, false_and, false_or]
    refine or_congr Iff.rfl ⟨?_, fun h => ⟨_, h.1, h.2, rfl⟩⟩
    rintro ⟨a, h1, h2, rfl⟩
    exact ⟨h1, h2⟩

theorem storeOperand_ok {s t : State} {d : Descriptor} {v : Value} :
    storeOperand s d v = .ok t ↔
      (d.ind = false ∧ d.idx.toNat < s.cfg.regCount ∧ t = s.setReg d.idx.toNat v) ∨
      (d.ind = true ∧ ∃ a, Points s d a ∧ (0 ≤ a ∧ a < (s.cfg.memSize : Int)) ∧ t = s.setCell a.toNat v) := by
  unfold storeOperand
  cases h : d.ind <;> simp [Checked.bind_ok, effectiveAddress_ok, memWrite_ok, regWrite_ok, regIndex]

theorem storeOperand_error {s : State} {d : Descriptor} {v : Value} {e : Raise} :
    storeOperand s d v = .error e ↔
      (d.ind = false ∧ s.cfg.regCount ≤ d.idx.toNat ∧ e = ⟨.regRange, d.idx.toNat⟩) ∨
      (d.ind = true ∧ IntFault s d.idx.toNat e.cause ∧ e.info = d.idx.toNat) ∨
      (d.ind = true ∧ ∃ a, Points s d a ∧ OutOfMem s a ∧ e = ⟨.memRange, a⟩) := by
  unfold storeOperand
  cases h : d.ind
  · simp [regWrite_error, regIndex]
  · simp [Checked.bind_error, effectiveAddress_error, effectiveAddress_ok, memWrite_error]

/-! ## The stack -/

theorem spIndex_lt (c : Config) : c.spIndex < c.regCount := c.ok.2.2.1

theorem pushVal_ok {s t : State} {v : Value} :
    pushVal s v = .ok t ↔ ∃ sp, HoldsInt s s.cfg.spIndex sp ∧ (0 ≤ sp.toInt ∧ sp.toInt < (s.cfg.memSize : Int)) ∧
      t = (s.setCell sp.toInt.toNat v).setReg s.cfg.spIndex (.int (wrapW (sp.toInt - 1))) := by
  simp only [pushVal, Checked.bind_ok, stackAddress_ok, memWrite_ok, regWrite_ok]
  constructor
  · rintro ⟨sp, h, u, ⟨hr, rfl⟩, -, rfl⟩; exact ⟨sp, h, hr, rfl⟩
  · rintro ⟨sp, h, hr, rfl⟩; exact ⟨sp, h, _, ⟨hr, rfl⟩, spIndex_lt _, rfl⟩

theorem pushVal_error {s : State} {v : Value} {e : Raise} :
    pushVal s v = .error e ↔ (IntFault s s.cfg.spIndex e.cause ∧ e.info = s.cfg.spIndex) ∨
      ∃ sp, HoldsInt s s.cfg.spIndex sp ∧ OutOfMem s sp.toInt ∧ e = ⟨.memRange, sp.toInt⟩ := by
  simp only [pushVal, Checked.bind_error, stackAddress_error, stackAddress_ok, memWrite_error, memWrite_ok,
    regWrite_error]
  refine or_congr Iff.rfl ⟨?_, fun ⟨sp, h, ho, he⟩ => ⟨sp, h, .inl ⟨ho, he⟩⟩⟩
  rintro ⟨sp, h, ⟨ho, he⟩ | ⟨u, ⟨-, rfl⟩, hc, -⟩⟩
  · exact ⟨sp, h, ho, he⟩
  · exact absurd (spIndex_lt s.cfg) (by simpa using hc)

theorem popVal_ok {s t : State} {v : Value} :
    popVal s = .ok (v, t) ↔ ∃ sp, HoldsInt s s.cfg.spIndex sp ∧ CellHolds s (sp.toInt + 1) v ∧
      t = s.setReg s.cfg.spIndex (.int (wrapW (sp.toInt + 1))) := by
  simp only [popVal, Checked.bind_ok, stackAddress_ok, memRead_ok, regWrite_ok, Checked.pure_ok, Prod.mk.injEq]
  constructor
  · rintro ⟨sp, h, u, hu, w, ⟨-, rfl⟩, rfl, rfl⟩; exact ⟨sp, h, hu, rfl⟩
  · rintro ⟨sp, h, hu, rfl⟩; exact ⟨sp, h, _, hu, _, ⟨spIndex_lt _, rfl⟩, rfl, rfl⟩

theorem popVal_error {s : State} {e : Raise} :
    popVal s = .error e ↔ (IntFault s s.cfg.spIndex e.cause ∧ e.info = s.cfg.spIndex) ∨
      ∃ sp, HoldsInt s s.cfg.spIndex sp ∧ CellFault s (sp.toInt + 1) e.cause ∧ e.info = sp.toInt + 1 := by
  simp only [popVal, Checked.bind_error, stackAddress_error, stackAddress_ok, memRead_error, memRead_ok,
    regWrite_error, Checked.pure_error, and_false, exists_false, or_false]
  refine or_congr Iff.rfl ⟨?_, fun ⟨sp, h, ho, he⟩ => ⟨sp, h, .inl ⟨ho, he⟩⟩⟩
  rintro ⟨sp, h, ⟨ho, he⟩ | ⟨u, -, hc, -⟩⟩
  · exact ⟨sp, h, ho, he⟩
  · exact absurd (spIndex_lt s.cfg) (by simpa using hc)

/-! ## Fetch and input -/

theorem fetchWord_ok {s : State} {w : InstrWord} :
    fetchWord s = .ok w ↔ CellHolds s s.pc.toInt (.instr w) := by
  unfold fetchWord
  split
  · rename_i h; rw [portRead_none] at h; simp; omega
  all_goals
    rename_i h
    rw [portRead_some] at h
    simp [CellHolds, h]

theorem fetchWord_error {s : State} {e : Raise} :
    fetchWord s = .error e ↔
      (OutOfMem s s.pc.toInt ∧ e = ⟨.fetchRange, s.pc.toInt⟩) ∨
      (¬ OutOfMem s s.pc.toInt ∧ (∀ w, s.cell s.pc.toInt.toNat ≠ .instr w) ∧ e = ⟨.fetchNotInstr, s.pc.toInt⟩) := by
  unfold fetchWord
  split
  · rename_i h; rw [portRead_none] at h; simp only [h, not_true, true_and, false_and, or_false, Except.error.injEq]
    exact eq_comm
  all_goals
    rename_i h
    rw [portRead_some] at h
    have : ¬ OutOfMem s s.pc.toInt := by unfold OutOfMem; omega
    simp [this, h.2, eq_comm]

/-- A fetch at a cell in memory sees what that cell holds (R65). -/
theorem fetchSees_of_cell {u : State} {v : Value} (ho : ¬ OutOfMem u u.pc.toInt)
    (hc : u.cell u.pc.toInt.toNat = v) : FetchSees u v := by
  refine ⟨?_, fun hv => fetchWord_error.mpr (.inr ⟨ho, fun w => by rw [hc]; exact hv w, rfl⟩)⟩
  rintro w rfl
  unfold OutOfMem at ho
  exact fetchWord_ok.mpr ⟨by omega, by omega, hc, by simp⟩

theorem inputOp_int_ok {s t : State} {n : Word} :
    inputOp (.int n) s = .ok t ↔ (0 ≤ s.inAddr.toInt ∧ s.inAddr.toInt < (s.cfg.memSize : Int)) ∧
      t = ((s.setCell s.inAddr.toInt.toNat (.int n)).setFlag true).setFsm .run := by
  simp only [inputOp, Checked.bind_ok, memWrite_ok, literalAddress, Checked.pure_ok]
  constructor
  · rintro ⟨u, ⟨h, rfl⟩, rfl⟩; exact ⟨h, rfl⟩
  · rintro ⟨h, rfl⟩; exact ⟨_, ⟨h, rfl⟩, rfl⟩

theorem inputOp_int_error {s : State} {n : Word} {e : Raise} :
    inputOp (.int n) s = .error e ↔ OutOfMem s s.inAddr.toInt ∧ e = ⟨.memRange, s.inAddr.toInt⟩ := by
  simp only [inputOp, Checked.bind_error, memWrite_error, literalAddress, Checked.pure_error, and_false, exists_false,
    or_false]

end Sys2Proof.Machine
end

