-- ==== Sys2Proof/Laws/Exec.lean ====
section
/-! SUPPORT. What an instruction can do, said once: `exec` is the commit of one computation, and the state it commits has
the form `Effect` gives. -/

namespace Sys2Proof.Machine

/-- The computation whose result an instruction commits. -/
def instrOp (i : Instr) (s : State) : Checked State :=
  match i with
  | .add a b c => binaryOp aluAdd a b c s
  | .mul a b c => binaryOp aluMul a b c s
  | .increment a => unaryOp aluInc a s
  | .decrement a => unaryOp aluDec a s
  | .moveReg dst src => moveRegOp dst src s
  | .moveInt dst n => storeOperand s dst (.int n)
  | .moveText dst t => storeOperand s dst (.text t)
  | .load a addr => loadOp a addr s
  | .push a => pushOp a s
  | .pop a => popOp a s
  | .call addr => callOp addr s
  | .ret => retOp s
  | .jump addr => .ok (s.setPc addr)
  | .jumpIfTrue addr => .ok (if s.flag then s.setPc addr else s)
  | .testEquals a b => testEqualsOp a b s
  | .echo a => echoOp a s
  | .iinput addr => .ok ((s.setInAddr addr).setFsm .waitIn)
  | .halt => .ok (s.setFsm .halted)

theorem exec_eq_commit (i : Instr) (s : State) : exec i s = commit s (instrOp i s) := by cases i <;> rfl

/-- A register that exists is set. -/
abbrev RegEffect (s t : State) (r : Nat) : Prop := r < s.cfg.regCount ∧ ∃ v, t = s.setReg r v

/-- A Move's destination is set: a register, or the cell its effective address names. -/
abbrev MoveEffect (s t : State) (d : Descriptor) : Prop :=
  (d.ind = false ∧ RegEffect s t d.idx.toNat) ∨
    (d.ind = true ∧ ∃ a v, Points s d a ∧ 0 ≤ a ∧ a < (s.cfg.memSize : Int) ∧ t = s.setCell a.toNat v)

/-- A value is pushed. -/
abbrev PushEffect (s t : State) : Prop :=
  ∃ sp v w, HoldsInt s s.cfg.spIndex sp ∧ 0 ≤ sp.toInt ∧ sp.toInt < (s.cfg.memSize : Int) ∧
    t = (s.setCell sp.toInt.toNat v).setReg s.cfg.spIndex w

/-- The form of the state an instruction commits. -/
def Effect (i : Instr) (s t : State) : Prop :=
  match i with
  | .add a _ _ => RegEffect s t a.idx.toNat
  | .mul a _ _ => RegEffect s t a.idx.toNat
  | .increment a => RegEffect s t a.idx.toNat
  | .decrement a => RegEffect s t a.idx.toNat
  | .moveReg d _ => MoveEffect s t d
  | .moveInt d _ => MoveEffect s t d
  | .moveText d _ => MoveEffect s t d
  | .load a _ => RegEffect s t a.idx.toNat
  | .push _ => PushEffect s t
  | .pop a => a.idx.toNat < s.cfg.regCount ∧ ∃ v w, t = (s.setReg s.cfg.spIndex v).setReg a.idx.toNat w
  | .call addr => ∃ u, PushEffect s u ∧ t = u.setPc addr
  | .ret => ∃ sp r v, HoldsInt s s.cfg.spIndex sp ∧ CellHolds s (sp.toInt + 1) (.int r) ∧
      t = (s.setReg s.cfg.spIndex v).setPc r
  | .jump addr => t = s.setPc addr
  | .jumpIfTrue addr => t = if s.flag then s.setPc addr else s
  | .testEquals _ _ => ∃ b, t = s.setFlag b
  | .echo a => ∃ v, SourceHolds s a v ∧ t = s.emit v
  | .iinput addr => t = (s.setInAddr addr).setFsm .waitIn
  | .halt => t = s.setFsm .halted

theorem binaryOp_ok {f : Word → Word → Word} {a b c : Descriptor} {s t : State} (h : binaryOp f a b c s = .ok t) :
    RegEffect s t a.idx.toNat := by
  simp only [binaryOp, Checked.bind_ok, regWrite_ok] at h
  obtain ⟨_, _, _, _, hr, ht⟩ := h
  exact ⟨hr, _, ht⟩

theorem unaryOp_ok {f : Word → Word} {a : Descriptor} {s t : State} (h : unaryOp f a s = .ok t) :
    RegEffect s t a.idx.toNat := by
  simp only [unaryOp, Checked.bind_ok, regWrite_ok] at h
  obtain ⟨_, _, hr, ht⟩ := h
  exact ⟨hr, _, ht⟩

theorem storeOperand_effect {d : Descriptor} {v : Value} {s t : State} (h : storeOperand s d v = .ok t) :
    MoveEffect s t d := by
  rw [storeOperand_ok] at h
  obtain ⟨hd, hr, ht⟩ | ⟨hd, a, hp, hr, ht⟩ := h
  · exact .inl ⟨hd, hr, v, ht⟩
  · exact .inr ⟨hd, a, v, hp, hr.1, hr.2, ht⟩

theorem pushVal_effect {v : Value} {s t : State} (h : pushVal s v = .ok t) : PushEffect s t := by
  rw [pushVal_ok] at h
  obtain ⟨sp, hs, hr, ht⟩ := h
  exact ⟨sp, v, _, hs, hr.1, hr.2, ht⟩

/-- What an instruction commits. -/
theorem instrOp_effect {i : Instr} {s t : State} (h : instrOp i s = .ok t) : Effect i s t := by
  cases i with
  | add a b c => exact binaryOp_ok h
  | mul a b c => exact binaryOp_ok h
  | increment a => exact unaryOp_ok h
  | decrement a => exact unaryOp_ok h
  | moveReg d c =>
    simp only [instrOp, moveRegOp, Checked.bind_ok] at h
    obtain ⟨v, -, h⟩ := h
    exact storeOperand_effect h
  | moveInt d n => exact storeOperand_effect h
  | moveText d n => exact storeOperand_effect h
  | load a n =>
    simp only [instrOp, loadOp, Checked.bind_ok, regWrite_ok] at h
    obtain ⟨v, -, hr, ht⟩ := h
    exact ⟨hr, v, ht⟩
  | push a =>
    simp only [instrOp, pushOp, Checked.bind_ok] at h
    obtain ⟨v, -, h⟩ := h
    exact pushVal_effect h
  | pop a =>
    simp only [instrOp, popOp, Checked.bind_ok, Prod.exists, popVal_ok, regWrite_ok] at h
    obtain ⟨v, u, ⟨sp, -, -, rfl⟩, hr, ht⟩ := h
    exact ⟨hr, _, v, ht⟩
  | call a =>
    simp only [instrOp, callOp, Checked.bind_ok, Checked.pure_ok] at h
    obtain ⟨u, hu, ht⟩ := h
    exact ⟨u, pushVal_effect hu, ht.symm⟩
  | ret =>
    simp only [instrOp, retOp, Checked.bind_ok, stackAddress_ok, memRead_ok, expectInt_ok, regWrite_ok,
      Checked.pure_ok] at h
    obtain ⟨sp, hs, v, hv, r, rfl, u, ⟨-, rfl⟩, ht⟩ := h
    exact ⟨sp, r, _, hs, hv, ht.symm⟩
  | jump a => cases h; rfl
  | jumpIfTrue a => cases h; rfl
  | testEquals a b =>
    simp only [instrOp, testEqualsOp, Checked.bind_ok, Checked.pure_ok] at h
    obtain ⟨_, _, _, _, ht⟩ := h
    exact ⟨_, ht.symm⟩
  | echo a =>
    simp only [instrOp, echoOp, Checked.bind_ok, resolve_ok, Checked.pure_ok] at h
    obtain ⟨v, hv, ht⟩ := h
    exact ⟨v, hv, ht.symm⟩
  | iinput a => cases h; rfl
  | halt => cases h; rfl

/-- All that an instruction can answer: its effect, or the entry into FAULTED for what its computation raises. -/
theorem exec_cases {i : Instr} {s t : State} (h : exec i s = .next t) :
    Effect i s t ∨ ∃ e, instrOp i s = .error e ∧ t = enterFaulted s e := by
  rw [exec_eq_commit, commit_next] at h
  exact h.imp instrOp_effect id

end Sys2Proof.Machine
end

