-- ==== Sys2Proof/Laws/PerInstr.lean ====
section
/-! SUPPORT. Statements made per instruction. `HeaderOfEncoding`: the header of an instruction's word carries its opcode,
reserved bits of zero and a source kind that is legal for it (checks 1 to 3 of R84). -/

namespace Sys2Proof.Laws

/-- The header checks of R84 on the word of `i`. -/
def HeaderOfEncoding.Statement (i : Instr) : Prop :=
  opField (encode i) = i.opcode.code ∧ rsvZero (encode i) = true ∧ kLegal i.opcode (encode i) = true

/-- The header checks on any word packed from the header of an opcode that takes the source kind `k`. -/
theorem header_checks (o : Opcode) (k : BitVec 2) (a b c : BitVec 32)
    (h : (k == 0#2 || (o == .move && (k == 1#2 || k == 2#2))) = true) :
    opField (packWord (header o k) a b c) = o.code ∧ rsvZero (packWord (header o k) a b c) = true ∧
      kLegal o (packWord (header o k) a b c) = true := by
  refine ⟨by simp, by simp [rsvZero], ?_⟩
  unfold kLegal
  rw [kField_packWord, header_k]
  exact h

theorem HeaderOfEncoding.add (a : Descriptor) (b : Descriptor) (c : Descriptor) : HeaderOfEncoding.Statement (.add a b c) :=
  header_checks _ _ _ _ _ rfl

theorem HeaderOfEncoding.mul (a : Descriptor) (b : Descriptor) (c : Descriptor) : HeaderOfEncoding.Statement (.mul a b c) :=
  header_checks _ _ _ _ _ rfl

theorem HeaderOfEncoding.increment (a : Descriptor) : HeaderOfEncoding.Statement (.increment a) :=
  header_checks _ _ _ _ _ rfl

theorem HeaderOfEncoding.decrement (a : Descriptor) : HeaderOfEncoding.Statement (.decrement a) :=
  header_checks _ _ _ _ _ rfl

theorem HeaderOfEncoding.moveReg (dst : Descriptor) (src : Descriptor) : HeaderOfEncoding.Statement (.moveReg dst src) :=
  header_checks _ _ _ _ _ rfl

theorem HeaderOfEncoding.moveInt (dst : Descriptor) (n : Word) : HeaderOfEncoding.Statement (.moveInt dst n) :=
  header_checks _ _ _ _ _ rfl

theorem HeaderOfEncoding.moveText (dst : Descriptor) (t : Handle) : HeaderOfEncoding.Statement (.moveText dst t) :=
  header_checks _ _ _ _ _ rfl

theorem HeaderOfEncoding.load (a : Descriptor) (addr : Word) : HeaderOfEncoding.Statement (.load a addr) :=
  header_checks _ _ _ _ _ rfl

theorem HeaderOfEncoding.push (a : Descriptor) : HeaderOfEncoding.Statement (.push a) :=
  header_checks _ _ _ _ _ rfl

theorem HeaderOfEncoding.pop (a : Descriptor) : HeaderOfEncoding.Statement (.pop a) :=
  header_checks _ _ _ _ _ rfl

theorem HeaderOfEncoding.call (addr : Word) : HeaderOfEncoding.Statement (.call addr) :=
  header_checks _ _ _ _ _ rfl

theorem HeaderOfEncoding.ret : HeaderOfEncoding.Statement .ret :=
  header_checks _ _ _ _ _ rfl

theorem HeaderOfEncoding.jump (addr : Word) : HeaderOfEncoding.Statement (.jump addr) :=
  header_checks _ _ _ _ _ rfl

theorem HeaderOfEncoding.jumpIfTrue (addr : Word) : HeaderOfEncoding.Statement (.jumpIfTrue addr) :=
  header_checks _ _ _ _ _ rfl

theorem HeaderOfEncoding.testEquals (a : Descriptor) (b : Descriptor) : HeaderOfEncoding.Statement (.testEquals a b) :=
  header_checks _ _ _ _ _ rfl

theorem HeaderOfEncoding.echo (a : Descriptor) : HeaderOfEncoding.Statement (.echo a) :=
  header_checks _ _ _ _ _ rfl

theorem HeaderOfEncoding.iinput (addr : Word) : HeaderOfEncoding.Statement (.iinput addr) :=
  header_checks _ _ _ _ _ rfl

theorem HeaderOfEncoding.halt : HeaderOfEncoding.Statement .halt :=
  header_checks _ _ _ _ _ rfl

end Sys2Proof.Laws
end

