-- ==== Sys2Proof/Laws/Step.lean ====
section
/-! SUPPORT. What a step can do, said once: by the host's next event, then by the state of the core. -/

namespace Sys2Proof.Machine

@[simp] theorem State.eventTaken_fsm (s : State) : s.eventTaken.fsm = s.fsm := rfl
@[simp] theorem State.eventTaken_cfg (s : State) : s.eventTaken.cfg = s.cfg := rfl
@[simp] theorem State.eventTaken_pc (s : State) : s.eventTaken.pc = s.pc := rfl
@[simp] theorem State.eventTaken_inAddr (s : State) : s.eventTaken.inAddr = s.inAddr := rfl
@[simp] theorem State.eventTaken_reg (s : State) (i : Nat) : s.eventTaken.reg i = s.reg i := rfl
@[simp] theorem State.eventTaken_cell (s : State) (a : Nat) : s.eventTaken.cell a = s.cell a := rfl
@[simp] theorem State.eventTaken_inMem (s : State) (a : Int) : s.eventTaken.inMem a = s.inMem a := rfl

/-- A step takes the host's next event: accepted, it is the step; otherwise the core goes on by itself. -/
theorem step_by_event (s : State) :
    step s = match hostAct s.nextEvent s.eventTaken with
      | some t => .next t
      | none => coreStep s.eventTaken := by
  unfold step cycle State.nextEvent State.eventTaken
  cases h : s.host with
  | nil =>
    simp only [hostAct, List.tail_nil]
    congr 1
    cases s
    simp_all
  | cons e r => rfl

/-- In RUN no event but `reset` is accepted. -/
theorem hostAct_run {e : HostEvent} {s : State} (hs : s.fsm = .run) (he : e ≠ .reset) : hostAct e s = none := by
  cases e <;> simp_all [hostAct]

/-- In HALTED and FAULTED no event but `reset` is accepted. -/
theorem hostAct_ended {e : HostEvent} {s : State} (hs : s.ended) (he : e ≠ .reset) : hostAct e s = none := by
  rcases hs with hs | hs <;> cases e <;> simp_all [hostAct]

/-- In WAIT_IN no event but `reset` and a response is accepted. -/
theorem hostAct_waitIn {e : HostEvent} {s : State} (hs : s.fsm = .waitIn) (he : e ≠ .reset)
    (hr : ∀ r, e ≠ .respond r) : hostAct e s = none := by
  cases e <;> simp_all [hostAct]

/-- All that one instruction step can be: a fetch fault, an illegal word, or the execution of the decoded instruction. -/
theorem runInstr_cases {s t : State} (h : runInstr s = .next t) :
    (OutOfMem s s.pc.toInt ∧ t = enterFaulted (latchPc s) ⟨.fetchRange, s.pc.toInt⟩) ∨
    (¬ OutOfMem s s.pc.toInt ∧ (∀ w, s.cell s.pc.toInt.toNat ≠ .instr w) ∧
      t = enterFaulted (latchPc s) ⟨.fetchNotInstr, s.pc.toInt⟩) ∨
    (∃ w e, CellHolds s s.pc.toInt (.instr w) ∧ decode w = .error e ∧
      t = enterFaulted (advancePc (latchPc s)) ⟨.illegalInstr, 0⟩) ∨
    (∃ w i, CellHolds s s.pc.toInt (.instr w) ∧ decode w = .ok i ∧ exec i (advancePc (latchPc s)) = .next t) := by
  unfold runInstr at h
  cases hf : fetchWord (latchPc s) with
  | error r =>
    rw [hf] at h
    cases h
    rcases fetchWord_error.mp hf with ⟨ho, rfl⟩ | ⟨ho, hw, rfl⟩
    · exact .inl ⟨ho, rfl⟩
    · exact .inr (.inl ⟨ho, hw, rfl⟩)
  | ok w =>
    have hw : CellHolds s s.pc.toInt (.instr w) := fetchWord_ok.mp hf
    rw [hf] at h
    dsimp only at h
    cases hd : decode w with
    | error e =>
      rw [hd] at h
      cases h
      exact .inr (.inr (.inl ⟨w, e, hw, hd, rfl⟩))
    | ok i =>
      rw [hd] at h
      exact .inr (.inr (.inr ⟨w, i, hw, hd, h⟩))

/-- All that the completion of an Iinput can be (R183). -/
theorem iinputComplete_cases (r : InResponse) (s : State) :
    (∃ n, r = .int n ∧ ¬ OutOfMem s s.inAddr.toInt ∧
      iinputComplete r s = ((s.setCell s.inAddr.toInt.toNat (.int n)).setFlag true).setFsm .run) ∨
    (∃ n, r = .int n ∧ OutOfMem s s.inAddr.toInt ∧
      iinputComplete r s = enterFaulted s ⟨.memRange, s.inAddr.toInt⟩) ∨
    ((r = .parseFail ∨ r = .readError) ∧ iinputComplete r s = (s.setFlag false).setFsm .run) ∨
    (r = .eos ∧ iinputComplete r s = enterFaulted s ⟨.inputEos, 0⟩) := by
  cases r with
  | int n =>
    by_cases ho : OutOfMem s s.inAddr.toInt
    · have := inputOp_int_error (n := n).mpr ⟨ho, rfl⟩
      exact .inr (.inl ⟨n, rfl, ho, by simp [iinputComplete, this]⟩)
    · have : inputOp (.int n) s = .ok _ := inputOp_int_ok.mpr ⟨by unfold OutOfMem at ho; omega, rfl⟩
      exact .inl ⟨n, rfl, ho, by simp [iinputComplete, this]⟩
  | parseFail => exact .inr (.inr (.inl ⟨.inl rfl, rfl⟩))
  | readError => exact .inr (.inr (.inl ⟨.inr rfl, rfl⟩))
  | eos => exact .inr (.inr (.inr ⟨rfl, rfl⟩))

end Sys2Proof.Machine
end

