-- ==== Sys2Proof/Machine/Assembler.lean ====
section
/-! DEFINITION. The assembler notation of the instructions (00_scope.md R17, 30_encoding.md R87). It is a rendering only:
no step reads it, and the loader's source syntax is out of scope (R6). -/

namespace Sys2Proof.Machine

/-- `rK` (R17). -/
def asmReg (d : Descriptor) : String := "r" ++ toString d.idx.toNat

/-- `[rK]`, `[rK+O]` or `[rK-O]` (R17). -/
def asmIndirect (d : Descriptor) : String :=
  if d.off.toInt = 0 then "[" ++ asmReg d ++ "]"
  else if 0 < d.off.toInt then "[" ++ asmReg d ++ "+" ++ toString d.off.toInt ++ "]"
  else "[" ++ asmReg d ++ toString d.off.toInt ++ "]"

/-- A register operand, direct or indirect (R17). -/
def asmOperand (d : Descriptor) : String := if d.ind then asmIndirect d else asmReg d

/-- The notation of an instruction (R87). What text a handle stands for is the host's (R38), so it is an argument. -/
def asm (textOf : Handle → String) : Instr → String
  | .add a b c => "Add " ++ asmReg a ++ ", " ++ asmReg b ++ ", " ++ asmReg c
  | .mul a b c => "Mul " ++ asmReg a ++ ", " ++ asmReg b ++ ", " ++ asmReg c
  | .increment a => "Increment " ++ asmReg a
  | .decrement a => "Decrement " ++ asmReg a
  | .moveReg dst src => "Move " ++ asmOperand dst ++ ", " ++ asmOperand src
  | .moveInt dst n => "Move " ++ asmOperand dst ++ ", " ++ toString n.toInt
  | .moveText dst t => "Move " ++ asmOperand dst ++ ", \"" ++ textOf t ++ "\""
  | .load a addr => "Load " ++ asmReg a ++ ", " ++ toString addr.toInt
  | .push a => "Push " ++ asmReg a
  | .pop a => "Pop " ++ asmReg a
  | .call addr => "Call " ++ toString addr.toInt
  | .ret => "Ret"
  | .jump addr => "Jump " ++ toString addr.toInt
  | .jumpIfTrue addr => "JumpIfTrue " ++ toString addr.toInt
  | .testEquals a b => "TestEquals " ++ asmReg a ++ ", " ++ asmReg b
  | .echo a => "Echo " ++ asmOperand a
  | .iinput addr => "Iinput " ++ toString addr.toInt
  | .halt => "Halt"

end Sys2Proof.Machine
end

