-- ==== Sys2Proof/Tests/Slice0.lean ====
section
/-! SUPPORT. The model's own tests. Expected results are those of spec/95_test_vectors.md (the id of the vector stands at
each test) and of the rules; words are written out from 30_encoding.md R79 and R80 as that file writes them. At the end,
for every statement that has hypotheses, states and operands that meet them. -/

namespace Sys2Proof.Tests

open Sys2Proof Sys2Proof.Machine

/-! ## Helpers -/

/-- `rK`. -/
def r (i : BitVec 8) : Descriptor := ⟨i, false, 0⟩

/-- `[rK+O]`. -/
def ind (i : BitVec 8) (o : BitVec 16) : Descriptor := ⟨i, true, o⟩

/-- A small state in RUN: the reference configuration, the host idle, pc at `f`. -/
def running (f : Word) (regs : RegFile) (mem : Memory) : State :=
  { State.reset with fsm := .run, pc := f, regs := regs, mem := mem }

/-- `running` with the word `w` at `f`. -/
def start (f : Word) (w : InstrWord) (regs : RegFile) (mem : Memory) : State :=
  running f regs (Cells.write mem f.toInt.toNat (.instr w))

/-- The state after one step. -/
def after (s : State) : State :=
  match step s with
  | .next t => t
  | .fault _ => s
  | .refused _ => s

/-- STATE, FAULT_CAUSE, FAULT_PC, FAULT_INFO. -/
def record (s : State) : Fsm × FaultCause × Int × Int := (s.fsm, s.faultCause, s.faultPc.toInt, s.faultInfo.toInt)

/-! ## Ill-formed terms and words -/

/-- Every operand of kind D refuses an indirect descriptor (R81, check 4 of R84). -/
theorem test_wf_refuses_indirect :
    (Instr.add (ind 1 0) (r 2) (r 3)).wf = false ∧ (Instr.add (r 1) (ind 2 0) (r 3)).wf = false ∧
    (Instr.add (r 1) (r 2) (ind 3 0)).wf = false ∧ (Instr.mul (ind 1 0) (r 2) (r 3)).wf = false ∧
    (Instr.mul (r 1) (ind 2 0) (r 3)).wf = false ∧ (Instr.mul (r 1) (r 2) (ind 3 0)).wf = false ∧
    (Instr.increment (ind 1 0)).wf = false ∧ (Instr.decrement (ind 1 0)).wf = false ∧
    (Instr.load (ind 1 0) 5).wf = false ∧ (Instr.push (ind 1 0)).wf = false ∧ (Instr.pop (ind 1 0)).wf = false ∧
    (Instr.testEquals (ind 1 0) (r 2)).wf = false ∧ (Instr.testEquals (r 1) (ind 2 0)).wf = false := by decide

/-- Operands of kind R may be indirect (R81). -/
theorem test_wf_allows_indirect :
    (Instr.moveReg (ind 1 2) (ind 2 3)).wf = true ∧ (Instr.moveInt (ind 1 2) 3).wf = true ∧
    (Instr.echo (ind 1 2)).wf = true := by decide

/-- Check 1, `op_known`, X4. -/
theorem test_op_unknown : decode 0x00000000_00000000_00000000_00000011 = .error .opUnknown := by decide

/-- Check 1, `op_known`: OP 0x00. -/
theorem test_op_zero : decode 0x00000000_00000000_00000000_00000000 = .error .opUnknown := by decide

/-- Check 2, `rsv_zero`, X7. -/
theorem test_rsv_nonzero : decode 0x00000000_00000000_00000000_00000410 = .error .rsvNonzero := by decide

/-- Check 3, `k_legal`, X5. -/
theorem test_k_reserved : decode 0x00000000_00000000_00000000_00000305 = .error .kIllegal := by decide

/-- Check 3, `k_legal`: K = 01 on an opcode that is not Move. -/
theorem test_k_not_move : decode 0x00000000_00000000_00000000_00000110 = .error .kIllegal := by decide

/-- Check 4, `direct_ok`, X3. -/
theorem test_not_direct : decode 0x00000000_00000000_01000001_00000003 = .error .notDirect := by decide

/-- Check 5, `unused_zero`, X6. -/
theorem test_unused_nonzero : decode 0x00000000_00000001_00000000_00000010 = .error .unusedNonzero := by decide

/-! ## Decoding of hand-written words -/

/-- S9, A1, P1 and P3: the ALU instructions. -/
theorem test_decode_alu :
    decode 0x00000002_00000001_00000000_00000001 = .ok (.add (r 0) (r 1) (r 2)) ∧
    decode 0x00000002_00000001_00000000_00000002 = .ok (.mul (r 0) (r 1) (r 2)) ∧
    decode 0x00000000_00000000_00000003_00000003 = .ok (.increment (r 3)) ∧
    decode 0x00000000_00000000_00000003_00000004 = .ok (.decrement (r 3)) ∧
    decode 0x00000000_00000002_00000001_0000000D = .ok (.testEquals (r 1) (r 2)) := by decide

/-- P3, S7, S8, P2: the three forms of Move, Load, Push, Pop. -/
theorem test_decode_data :
    decode 0x00000000_01000201_00000002_00000005 = .ok (.moveReg (r 2) (ind 1 2)) ∧
    decode 0x00000000_00000002_01FFFF01_00000005 = .ok (.moveReg (ind 1 0xFFFF) (r 2)) ∧
    decode 0x00000000_00000028_00000001_00000105 = .ok (.moveInt (r 1) 40) ∧
    decode 0x00000000_00000001_01000001_00000205 = .ok (.moveText (ind 1 0) 1) ∧
    decode 0x00000000_00000014_00000000_00000006 = .ok (.load (r 0) 20) ∧
    decode 0x00000000_00000000_0000000E_00000007 = .ok (.push (r 14)) ∧
    decode 0x00000000_00000000_00000001_00000008 = .ok (.pop (r 1)) := by decide

/-- P1, P2, P3, P5: control transfer, input and output. -/
theorem test_decode_control :
    decode 0x00000000_00000000_00000005_00000009 = .ok (.call 5) ∧
    decode 0x00000000_00000000_00000000_0000000A = .ok .ret ∧
    decode 0x00000000_00000000_00000003_0000000B = .ok (.jump 3) ∧
    decode 0x00000000_00000000_00000008_0000000C = .ok (.jumpIfTrue 8) ∧
    decode 0x00000000_00000000_01000001_0000000E = .ok (.echo (ind 1 0)) ∧
    decode 0x00000000_00000000_00000014_0000000F = .ok (.iinput 20) ∧
    decode 0x00000000_00000000_00000000_00000010 = .ok .halt := by decide

/-- Section 2.1 of the vectors: descriptors encoded. -/
theorem test_descriptor_encode :
    encDescriptor 0 false 0 = 0x00000000#32 ∧ encDescriptor 255 false 0 = 0x000000FF#32 ∧
    encDescriptor 5 true (-32768) = 0x01800005#32 ∧ encDescriptor 5 true 32767 = 0x017FFF05#32 ∧
    encDescriptor 15 true (-1) = 0x01FFFF0F#32 := by decide

/-- Section 2.1 of the vectors: descriptors decoded, ignored bits set. -/
theorem test_descriptor_decode :
    decodeDescriptor 0xFE00FF03#32 = ⟨3, false, 255⟩ ∧ decodeDescriptor 0xFFFFFFFF#32 = ⟨255, true, 0xFFFF⟩ ∧
    decodeDescriptor 0x00FFFF0A#32 = ⟨10, false, 0xFFFF⟩ ∧ (decodeDescriptor 0x01800005#32).off.toInt = -32768 := by
  decide

/-- No two rows of the opcode table overlap. -/
theorem test_table_rows_disjoint :
    opcodeTable.Pairwise (fun a b => a.pattern &&& (a.mask &&& b.mask) ≠ b.pattern &&& (a.mask &&& b.mask)) := by decide

/-- The host's view of the decoder: the row Halt, and a row of no known opcode. -/
theorem test_table_word : decodeTableWord 128 0x10 = some .halt ∧ decodeTableWord 128 0x11 = none := by decide

/-- R72: cells that are no Value. -/
theorem test_cells :
    Value.ofCell ((0#2 ++ 1#128 : BitVec 130)) = none ∧ Value.ofCell ((1#2 ++ 0x100000000#128 : BitVec 130)) = none ∧
    Value.ofCell ((2#2 ++ 7#128 : BitVec 130)) = some (.text 7) := by decide

/-- R87, P3. -/
theorem test_asm :
    asm (fun _ => "hi") (.moveText (ind 1 0) 1) = "Move [r1], \"hi\"" ∧
    asm (fun _ => "") (.moveReg (ind 1 0xFFFF) (r 2)) = "Move [r1-1], r2" := by decide

/-! ## One step of each instruction -/

/-- A2. -/
theorem test_add_wraps :
    (after (start 0 0x00000002_00000001_00000000_00000001 [(1, .int 2147483647), (2, .int 1)] [])).reg 0
      = .int (-2147483648) := by decide

/-- A13: the destination is checked last. -/
theorem test_add_dest_range :
    record (after (start 0 0x00000002_00000001_00000010_00000001 [(1, .int 1), (2, .int 2)] []))
      = (.faulted, .regRange, 0, 16) := by decide

/-- A8. -/
theorem test_mul_wraps :
    (after (start 0 0x00000001_00000001_00000000_00000002 [(1, .int 100000)] [])).reg 0 = .int 1410065408 := by decide

/-- A10. -/
theorem test_mul_not_integer :
    record (after (start 0 0x00000002_00000001_00000000_00000002 [(1, .int 0), (2, .text 1)] []))
      = (.faulted, .notInteger, 0, 2) := by decide

/-- A15. -/
theorem test_increment_wraps :
    (after (start 0 0x00000000_00000000_00000003_00000003 [(3, .int 2147483647)] [])).reg 3
      = .int (-2147483648) := by decide

/-- X8: bits 31 to 25 and the offset of a direct descriptor are ignored. -/
theorem test_increment_ignored_bits :
    (after (start 0 0x00000000_00000000_FE00FF01_00000003 [(1, .int 1)] [])).reg 1 = .int 2 := by decide

/-- A16. -/
theorem test_decrement_wraps :
    (after (start 0 0x00000000_00000000_00000003_00000004 [(3, .int (-2147483648))] [])).reg 3
      = .int 2147483647 := by decide

/-- A17. -/
theorem test_decrement_zero :
    (after (start 0 0x00000000_00000000_00000003_00000004 [(3, .int 0)] [])).reg 3 = .int (-1) := by decide

/-- E3. -/
theorem test_testEquals_variants :
    (after (start 0 0x00000000_00000002_00000001_0000000D [(1, .int 1), (2, .text 1)] [])).flag = false := by decide

/-- E5, on the same word in two registers. -/
theorem test_testEquals_instr :
    (after (start 0 0x00000000_00000002_00000001_0000000D [(1, .instr 16), (2, .instr 16)] [])).flag = true := by decide

/-- M7. -/
theorem test_moveReg_both_indirect :
    (after (start 0 0x00000000_01000001_01000102_00000005 [(1, .int 10), (2, .int 20)] [(10, .text 3)])).cell 21
      = .text 3 := by decide

/-- M12: the exact sum is reported in W + 1 bits. -/
theorem test_moveReg_exact_sum :
    record (after (start 0 0x00000000_017FFF01_00000002_00000005 [(1, .int 2147483647)] []))
      = (.faulted, .memRange, 0, 2147516414) := by decide

/-- M5. -/
theorem test_moveInt_to_memory :
    (after (start 0 0x00000000_00000005_01FFFE01_00000105 [(1, .int 100)] [])).cell 98 = .int 5 := by decide

/-- M8. -/
theorem test_moveInt_below_memory :
    record (after (start 0 0x00000000_00000005_01FFFF01_00000105 [(1, .int 0)] []))
      = (.faulted, .memRange, 0, -1) := by decide

/-- M3. -/
theorem test_moveText : (after (start 0 0x00000000_00000001_00000002_00000205 [] [])).reg 2 = .text 1 := by decide

/-- L2: an instruction is loaded as a value. -/
theorem test_load_instr :
    (after (start 0 0x00000000_00000000_00000004_00000006 [] [])).reg 4
      = .instr 0x00000000_00000000_00000004_00000006 := by decide

/-- L4. -/
theorem test_load_negative :
    record (after (start 0 0x00000000_FFFFFFFF_00000000_00000006 [] [])) = (.faulted, .memRange, 0, -1) := by decide

/-- P2: sp is stored at its old value. -/
theorem test_push_sp :
    let t := after (start 0 0x00000000_00000000_0000000F_00000007 [(15, .int 50)] [])
    t.cell 50 = .int 50 ∧ t.reg 15 = .int 49 := by decide

/-- P4. -/
theorem test_push_below_memory :
    let t := after (start 0 0x00000000_00000000_00000001_00000007 [(1, .int 1), (15, .int (-1))] [])
    record t = (.faulted, .memRange, 0, -1) ∧ t.reg 15 = .int (-1) := by decide

/-- Q2: the popped value wins. -/
theorem test_pop_sp :
    (after (start 0 0x00000000_00000000_0000000F_00000008 [(15, .int 49)] [(50, .int 7)])).reg 15 = .int 7 := by decide

/-- Q5: the staged sp is dropped. -/
theorem test_pop_dest_range :
    let t := after (start 0 0x00000000_00000000_00000010_00000008 [(15, .int 49)] [(50, .int 7)])
    record t = (.faulted, .regRange, 0, 16) ∧ t.reg 15 = .int 49 := by decide

/-- C1. -/
theorem test_call :
    let t := after (start 3 0x00000000_00000000_0000000A_00000009 [(15, .int 50)] [])
    t.cell 50 = .int 4 ∧ t.reg 15 = .int 49 ∧ t.pc = 10 := by decide

/-- C2. -/
theorem test_call_stack_range :
    let t := after (start 3 0x00000000_00000000_0000000A_00000009 [(15, .int 256)] [])
    record t = (.faulted, .memRange, 3, 256) ∧ t.pc = 4 := by decide

/-- R1. -/
theorem test_ret :
    let t := after (start 0 0x00000000_00000000_00000000_0000000A [(15, .int 49)] [(50, .int 4)])
    t.reg 15 = .int 50 ∧ t.pc = 4 := by decide

/-- R2. -/
theorem test_ret_not_integer :
    let t := after (start 2 0x00000000_00000000_00000000_0000000A [(15, .int 49)] [(50, .text 1)])
    record t = (.faulted, .retNotInteger, 2, 50) ∧ t.reg 15 = .int 49 ∧ t.pc = 3 := by decide

/-- J2: the target is not range-checked. -/
theorem test_jump_negative :
    (after (start 4 0x00000000_00000000_FFFFFFFF_0000000B [] [])).pc.toInt = -1 := by decide

/-- J3. -/
theorem test_jumpIfTrue_taken :
    let t := after { start 4 0x00000000_00000000_00000007_0000000C [] [] with flag := true }
    t.pc = 7 ∧ t.flag = true := by decide

/-- J4. -/
theorem test_jumpIfTrue_not_taken :
    (after (start 4 0x00000000_00000000_00000007_0000000C [] [])).pc = 5 := by decide

/-- O2. -/
theorem test_echo_indirect :
    (after (start 0 0x00000000_00000000_01000101_0000000E [(1, .int 40)] [(41, .text 2)])).output = [.text 2] := by
  decide

/-- O4. -/
theorem test_echo_empty :
    let t := after (start 0 0x00000000_00000000_00000003_0000000E [] [])
    record t = (.faulted, .emptyReg, 0, 3) ∧ t.output = [] := by decide

/-- N1, the request. -/
theorem test_iinput_waits :
    let t := after (start 0 0x00000000_00000000_0000001E_0000000F [] [])
    t.fsm = .waitIn ∧ t.inAddr = 30 ∧ t.pc = 1 := by decide

/-- N7, the completion. -/
theorem test_iinput_completes :
    let t := after { running 1 [] [(30, .instr 16)] with
      fsm := .waitIn, inAddr := 30, host := [.respond (.int (-2147483648))] }
    t.fsm = .run ∧ t.flag = true ∧ t.cell 30 = .int (-2147483648) := by decide

/-- H1. -/
theorem test_halt :
    let t := after (start 5 0x00000000_00000000_00000000_00000010 [] [])
    t.fsm = .halted ∧ t.pc = 6 ∧ t.runResult = some true := by decide

/-! ## Fetch and host -/

/-- X1. -/
theorem test_fetch_data :
    let t := after (running 0 [] [(0, .int 5)])
    record t = (.faulted, .fetchNotInstr, 0, 0) ∧ t.pc = 0 := by decide

/-- J2, its next step. -/
theorem test_fetch_range : record (after (running (-1) [] [])) = (.faulted, .fetchRange, -1, -1) := by decide

/-- X3. -/
theorem test_illegal :
    let t := after (start 0 0x00000000_00000000_01000001_00000003 [(1, .int 1)] [])
    record t = (.faulted, .illegalInstr, 0, 0) ∧ t.pc = 1 ∧ t.reg 1 = .int 1 := by decide

/-- X9. -/
theorem test_start : (after { State.reset with host := [.start] }).fsm = .run := by decide

/-- X10. -/
theorem test_start_ignored :
    (after { State.reset with fsm := .halted, host := [.start] }).fsm = .halted := by decide

/-- X11. -/
theorem test_reset :
    after { running 9 [(1, .int 1)] [(2, .int 2)] with
      fsm := .faulted, flag := true, faultCause := .memRange, faultPc := 8, faultInfo := 300, curPc := 8, inAddr := 3,
      output := [.int 1], host := [.reset] } = State.reset := by decide

/-- Placing a word after reset makes it the next instruction: `Move r1, 40`. -/
theorem test_withFetchWord :
    (after (State.reset.withFetchWord 128 0x00000000_00000028_00000001_00000105)).reg 1 = .int 40 := by decide

/-! ## States and operands that meet the hypotheses of the statements

One theorem for each statement with hypotheses, one conjunct for each of its clauses, at the ends of the ranges where a
clause has a range: registers 15 and 16 (M = 16), cells 0 and 255 and addresses -1 and 256 (N = 256). -/

/-- The state of most witnesses, with the stack register at `sp`. Register 4 and cell 30 are Empty; the largest and the
smallest integer stand in registers 5 and 6. -/
def sample (sp : Word) : State :=
  running 7 [(0, .int 0), (1, .int 255), (2, .int 256), (3, .text 1), (5, .int 2147483647), (6, .int (-2147483648)),
    (15, .int sp)] [(0, .int 4), (7, .instr 0x10), (20, .text 3), (255, .int (-5))]

/-- `sample` with an Iinput waiting for address `a` and the host about to do `e`. -/
def waiting (a : Word) (e : HostEvent) : State := { sample 50 with fsm := .waitIn, inAddr := a, host := [e] }

/-- `sample` in LOAD and the host about to do `e`. -/
def loading (e : HostEvent) : State := { sample 50 with fsm := .load, host := [e] }

/-- The three faults of an integer operand are met: register 16, an Empty register, a text (R122). -/
theorem witness_int_faults :
    IntFault (sample 50) (r 16).idx.toNat .regRange ∧ IntFault (sample 50) (r 255).idx.toNat .regRange ∧
    IntFault (sample 50) (r 4).idx.toNat .emptyReg ∧ IntFault (sample 50) (r 3).idx.toNat .notInteger := by decide

/-- The three faults of the stack register are met but REG_RANGE, which SP_INDEX < M rules out (R8). -/
theorem witness_sp_faults :
    IntFault (running 0 [] []) (running 0 [] []).cfg.spIndex .emptyReg ∧
    IntFault (running 0 [(15, .text 1)] []) (running 0 [(15, .text 1)] []).cfg.spIndex .notInteger := by decide

/-- The faults of a cell read as data are met: -1, 256, an Empty cell (R14). -/
theorem witness_cell_faults :
    CellFault (sample 50) (-1) .memRange ∧ CellFault (sample 50) 256 .memRange ∧
    CellFault (sample 50) 30 .emptyMem := by decide

theorem witness_DescriptorTriplesRoundTrip :
    ((0 : Nat) ≤ 255 ∧ (-32768 : Int) ≤ 32767 ∧ (32767 : Int) ≤ 32767) ∧
    ((255 : Nat) ≤ 255 ∧ (-32768 : Int) ≤ -32768 ∧ (-32768 : Int) ≤ 32767) := by decide

theorem witness_DecodeInvertsEncode : (Instr.add (r 255) (r 0) ⟨16, false, 0x8000⟩).wf = true := by decide

theorem witness_EncodeGivesBackDecodedWords :
    decode 0x00000000_00000000_FE00FF01_00000003 = .ok (.increment ⟨1, false, 255⟩) := by decide

theorem witness_DecoderAgreesWithOpcodeTable :
    decode 0x00000000_80000000_FFFFFFFF_00000105 = .ok (.moveInt ⟨255, true, 0xFFFF⟩ 0x80000000) := by decide

/-- Illegal words for each check at the pc of a state in RUN. -/
theorem witness_IllegalWordsFault :
    ((start 255 0x11 [] []).runsAlone ∧
      CellHolds (start 255 0x11 [] []) (start 255 0x11 [] []).pc.toInt (.instr 0x11) ∧
      decode 0x11 = .error .opUnknown) ∧
    ((start 0 0x410 [] []).runsAlone ∧
      CellHolds (start 0 0x410 [] []) (start 0 0x410 [] []).pc.toInt (.instr 0x410) ∧
      decode 0x410 = .error .rsvNonzero) := by decide

theorem witness_CellFormatRoundTrips :
    Value.ofCell (3#2 ++ 16#128 : BitVec 130) = some (.instr 16) ∧ Value.ofCell 0 = some .empty := by decide

/-- Add and Mul: the result at register 15, the two operand faults and the destination 16. -/
theorem witness_AddFollowsItsRule :
    (HoldsInt (sample 50) (r 5).idx.toNat 2147483647 ∧ HoldsInt (sample 50) (r 6).idx.toNat (-2147483648) ∧
      (r 15).idx.toNat < (sample 50).cfg.regCount) ∧
    IntFault (sample 50) (r 16).idx.toNat .regRange ∧
    (HoldsInt (sample 50) (r 5).idx.toNat 2147483647 ∧ IntFault (sample 50) (r 4).idx.toNat .emptyReg) ∧
    (HoldsInt (sample 50) (r 5).idx.toNat 2147483647 ∧ HoldsInt (sample 50) (r 5).idx.toNat 2147483647 ∧
      (sample 50).cfg.regCount ≤ (r 16).idx.toNat) := by decide

theorem witness_MulFollowsItsRule :
    (HoldsInt (sample 50) (r 6).idx.toNat (-2147483648) ∧ HoldsInt (sample 50) (r 6).idx.toNat (-2147483648) ∧
      (r 15).idx.toNat < (sample 50).cfg.regCount) ∧
    IntFault (sample 50) (r 3).idx.toNat .notInteger ∧
    (HoldsInt (sample 50) (r 5).idx.toNat 2147483647 ∧ IntFault (sample 50) (r 16).idx.toNat .regRange) ∧
    (HoldsInt (sample 50) (r 1).idx.toNat 255 ∧ HoldsInt (sample 50) (r 2).idx.toNat 256 ∧
      (sample 50).cfg.regCount ≤ (r 16).idx.toNat) := by decide

theorem witness_IncrementFollowsItsRule :
    HoldsInt (sample 50) (r 5).idx.toNat 2147483647 ∧ HoldsInt (sample 50) (r 15).idx.toNat 50 ∧
    IntFault (sample 50) (r 16).idx.toNat .regRange := by decide

theorem witness_DecrementFollowsItsRule :
    HoldsInt (sample 50) (r 6).idx.toNat (-2147483648) ∧ HoldsInt (sample 50) (r 0).idx.toNat 0 ∧
    IntFault (sample 50) (r 4).idx.toNat .emptyReg := by decide

theorem witness_ValueEqComparesVariantAndContent : Value.int 1 ≠ .empty ∧ Value.text 1 ≠ .empty := by decide

theorem witness_TestEqualsFollowsItsRule :
    (Holds (sample 50) (r 3).idx.toNat (.text 1) ∧ Holds (sample 50) (r 15).idx.toNat (.int 50)) ∧
    ReadFault (sample 50) (r 16).idx.toNat .regRange ∧
    (Holds (sample 50) (r 3).idx.toNat (.text 1) ∧ ReadFault (sample 50) (r 4).idx.toNat .emptyReg) := by decide

theorem witness_EffectiveAddressIsExact :
    HoldsInt (sample 50) (ind 5 32767).idx.toNat 2147483647 ∧ IntFault (sample 50) (ind 3 0).idx.toNat .notInteger ∧
    effectiveAddress (sample 50) (ind 5 32767) = .ok 2147516414 ∧
    effectiveAddress (sample 50) (ind 6 0x8000) = .ok (-2147516416) ∧
    effectiveAddress (sample 50) (ind 1 0) = .ok 255 := by decide

/-- The sources of Move: a register, a cell, an integer and a text. -/
theorem witness_move_sources :
    MovesValue (.moveReg (r 15) (r 3)) (sample 50) (r 15) (.text 1) ∧
    MovesValue (.moveReg (ind 1 0) (ind 1 0)) (sample 50) (ind 1 0) (.int (-5)) ∧
    MovesValue (.moveInt (r 16) (-1)) (sample 50) (r 16) (.int (-1)) ∧
    MovesValue (.moveText (ind 1 1) 7) (sample 50) (ind 1 1) (.text 7) :=
  ⟨.inl ⟨r 3, rfl, .inl (by decide)⟩, .inl ⟨ind 1 0, rfl, .inr ⟨rfl, 255, ⟨255, by decide, by decide⟩, by decide⟩⟩,
    .inr (.inl ⟨-1, rfl, rfl⟩), .inr (.inr ⟨7, rfl, rfl⟩)⟩

/-- The destinations of Move, in the order of the statement's clauses; and the faulting sources. -/
theorem witness_MoveFollowsItsRule :
    ((r 15).ind = false ∧ (r 15).idx.toNat < (sample 50).cfg.regCount) ∧
    ((ind 1 0).ind = true ∧ Points (sample 50) (ind 1 0) 255 ∧ ¬ OutOfMem (sample 50) 255) ∧
    ((r 16).ind = false ∧ (sample 50).cfg.regCount ≤ (r 16).idx.toNat) ∧
    ((ind 3 0).ind = true ∧ IntFault (sample 50) (ind 3 0).idx.toNat .notInteger) ∧
    ((ind 1 1).ind = true ∧ Points (sample 50) (ind 1 1) 256 ∧ OutOfMem (sample 50) 256) ∧
    ((ind 0 0xFFFF).ind = true ∧ Points (sample 50) (ind 0 0xFFFF) (-1) ∧ OutOfMem (sample 50) (-1)) ∧
    SourceFault (sample 50) (r 4) .emptyReg 4 ∧ SourceFault (sample 50) (ind 16 0) .regRange 16 ∧
    SourceFault (sample 50) (ind 5 32767) .memRange 2147516414 :=
  ⟨by decide, ⟨rfl, ⟨255, by decide, by decide⟩, by decide⟩, by decide, by decide,
    ⟨rfl, ⟨255, by decide, by decide⟩, by decide⟩, ⟨rfl, ⟨0, by decide, by decide⟩, by decide⟩,
    .inl (by decide), .inr (.inl (by decide)), .inr (.inr ⟨rfl, ⟨2147483647, by decide, by decide⟩, by decide⟩)⟩

theorem witness_LoadFollowsItsRule :
    (CellHolds (sample 50) (BitVec.toInt (255 : Word)) (.int (-5)) ∧ (r 15).idx.toNat < (sample 50).cfg.regCount) ∧
    (CellHolds (sample 50) (BitVec.toInt (0 : Word)) (.int 4)) ∧
    CellFault (sample 50) (BitVec.toInt (-1 : Word)) .memRange ∧
    CellFault (sample 50) (BitVec.toInt (256 : Word)) .memRange ∧
    (CellHolds (sample 50) (BitVec.toInt (20 : Word)) (.text 3) ∧ (sample 50).cfg.regCount ≤ (r 16).idx.toNat) := by
  decide

/-- Push at the stack addresses 255 and 0, of sp itself too; the faults in their order. -/
theorem witness_PushFollowsItsRule :
    (Holds (sample 255) (r 3).idx.toNat (.text 1) ∧ HoldsInt (sample 255) (sample 255).cfg.spIndex 255 ∧
      ¬ OutOfMem (sample 255) (BitVec.toInt (255 : Word))) ∧
    (Holds (sample 0) (r 15).idx.toNat (.int 0) ∧ HoldsInt (sample 0) (sample 0).cfg.spIndex 0 ∧
      ¬ OutOfMem (sample 0) (BitVec.toInt (0 : Word))) ∧
    ReadFault (sample 50) (r 16).idx.toNat .regRange ∧
    (Holds (running 0 [(1, .int 1)] []) (r 1).idx.toNat (.int 1) ∧
      IntFault (running 0 [(1, .int 1)] []) (running 0 [(1, .int 1)] []).cfg.spIndex .emptyReg) ∧
    (Holds (sample (-1)) (r 3).idx.toNat (.text 1) ∧ HoldsInt (sample (-1)) (sample (-1)).cfg.spIndex (-1) ∧
      OutOfMem (sample (-1)) (BitVec.toInt (-1 : Word))) := by decide

/-- Pop from the cells 0 and 255, into sp too; the faults in their order. -/
theorem witness_PopFollowsItsRule :
    (HoldsInt (sample (-1)) (sample (-1)).cfg.spIndex (-1) ∧
      CellHolds (sample (-1)) (BitVec.toInt (-1 : Word) + 1) (.int 4) ∧
      (r 15).idx.toNat < (sample (-1)).cfg.regCount) ∧
    (HoldsInt (sample 254) (sample 254).cfg.spIndex 254 ∧
      CellHolds (sample 254) (BitVec.toInt (254 : Word) + 1) (.int (-5)) ∧
      (r 2).idx.toNat < (sample 254).cfg.regCount) ∧
    IntFault (running 0 [] []) (running 0 [] []).cfg.spIndex .emptyReg ∧
    (HoldsInt (sample 255) (sample 255).cfg.spIndex 255 ∧
      CellFault (sample 255) (BitVec.toInt (255 : Word) + 1) .memRange) ∧
    (HoldsInt (sample 254) (sample 254).cfg.spIndex 254 ∧
      CellHolds (sample 254) (BitVec.toInt (254 : Word) + 1) (.int (-5)) ∧
      (sample 254).cfg.regCount ≤ (r 16).idx.toNat) := by decide

theorem witness_PopUndoesPush :
    (Holds (sample 255) (r 3).idx.toNat (.text 1) ∧ HoldsInt (sample 255) (sample 255).cfg.spIndex 255 ∧
      ¬ OutOfMem (sample 255) (BitVec.toInt (255 : Word)) ∧ (r 14).idx.toNat < (sample 255).cfg.regCount ∧
      (r 14).idx.toNat ≠ (sample 255).cfg.spIndex) ∧
    (Holds (sample 256) (r 3).idx.toNat (.text 1) ∧ HoldsInt (sample 256) (sample 256).cfg.spIndex 256 ∧
      OutOfMem (sample 256) (BitVec.toInt (256 : Word))) := by decide

/-- What the inner hypotheses of PopUndoesPush and RetUndoesCall ask of a later state holds of the state itself. -/
theorem witness_later_state :
    let t := after (start 3 0x00000000_00000000_0000000A_00000009 [(15, .int 50)] [])
    t.cfg = t.cfg ∧ t.regs = t.regs ∧ t.mem = t.mem ∧ t.reg 15 = t.reg 15 ∧
      t.cell (BitVec.toInt (50 : Word)).toNat = .int 4 := by decide

theorem witness_CallFollowsItsRule :
    (HoldsInt (sample 0) (sample 0).cfg.spIndex 0 ∧ ¬ OutOfMem (sample 0) (BitVec.toInt (0 : Word))) ∧
    (HoldsInt (sample 255) (sample 255).cfg.spIndex 255 ∧ ¬ OutOfMem (sample 255) (BitVec.toInt (255 : Word))) ∧
    IntFault (running 0 [(15, .text 1)] []) (running 0 [(15, .text 1)] []).cfg.spIndex .notInteger ∧
    (HoldsInt (sample 256) (sample 256).cfg.spIndex 256 ∧ OutOfMem (sample 256) (BitVec.toInt (256 : Word))) := by
  decide

theorem witness_RetFollowsItsRule :
    (HoldsInt (sample (-1)) (sample (-1)).cfg.spIndex (-1) ∧
      CellHolds (sample (-1)) (BitVec.toInt (-1 : Word) + 1) (.int 4)) ∧
    (HoldsInt (sample 254) (sample 254).cfg.spIndex 254 ∧
      CellHolds (sample 254) (BitVec.toInt (254 : Word) + 1) (.int (-5))) ∧
    IntFault (running 0 [] []) (running 0 [] []).cfg.spIndex .emptyReg ∧
    (HoldsInt (sample 29) (sample 29).cfg.spIndex 29 ∧
      CellFault (sample 29) (BitVec.toInt (29 : Word) + 1) .emptyMem) ∧
    (HoldsInt (sample 19) (sample 19).cfg.spIndex 19 ∧
      CellHolds (sample 19) (BitVec.toInt (19 : Word) + 1) (.text 3) ∧ (Value.text 3).isInt = false) := by decide

theorem witness_RetUndoesCall :
    HoldsInt (sample 255) (sample 255).cfg.spIndex 255 ∧ ¬ OutOfMem (sample 255) (BitVec.toInt (255 : Word)) := by decide

theorem witness_JumpIfTrueFollowsItsRule : { sample 50 with flag := true }.flag = true ∧ (sample 50).flag = false := by
  decide

theorem witness_EchoFollowsItsRule :
    SourceHolds (sample 50) (r 15) (.int 50) ∧ SourceHolds (sample 50) (ind 1 0) (.int (-5)) ∧
    SourceFault (sample 50) (r 4) .emptyReg 4 ∧ SourceFault (sample 50) (ind 2 0) .memRange 256 ∧
    SourceFault (sample 50) (ind 0 30) .emptyMem 30 :=
  ⟨.inl (by decide), .inr ⟨rfl, 255, ⟨255, by decide, by decide⟩, by decide⟩, .inl (by decide),
    .inr (.inr ⟨rfl, ⟨256, by decide, by decide⟩, by decide⟩), .inr (.inr ⟨rfl, ⟨0, by decide, by decide⟩, by decide⟩)⟩

/-- The four responses, an integer at the addresses 255 and 256. -/
theorem witness_IinputFollowsItsRule :
    ((waiting 255 (.respond (.int 1))).fsm = .waitIn ∧
      (waiting 255 (.respond (.int 1))).nextEvent = .respond (.int 1) ∧
      ¬ OutOfMem (waiting 255 (.respond (.int 1))) (waiting 255 (.respond (.int 1))).inAddr.toInt) ∧
    ((waiting 256 (.respond (.int 1))).fsm = .waitIn ∧
      (waiting 256 (.respond (.int 1))).nextEvent = .respond (.int 1) ∧
      OutOfMem (waiting 256 (.respond (.int 1))) (waiting 256 (.respond (.int 1))).inAddr.toInt) ∧
    ((waiting 256 (.respond .parseFail)).fsm = .waitIn ∧
      (waiting 256 (.respond .parseFail)).nextEvent = .respond .parseFail) ∧
    ((waiting 255 (.respond .readError)).fsm = .waitIn ∧
      (waiting 255 (.respond .readError)).nextEvent = .respond .readError) ∧
    ((waiting 0 (.respond .eos)).fsm = .waitIn ∧ (waiting 0 (.respond .eos)).nextEvent = .respond .eos) := by decide

/-- An instruction at the last cell, and one beside a host command that RUN does not accept. -/
theorem witness_StepRunsTheDecodedInstruction :
    ((start 255 0x10 [] []).runsAlone ∧ Fetches (start 255 0x10 [] []) .halt) ∧
    { sample 50 with host := [.start] }.runsAlone ∧ Fetches { sample 50 with host := [.start] } .halt :=
  ⟨⟨by decide, 0x10, by decide, by decide⟩, by decide, 0x10, by decide, by decide⟩

/-- A pc at the last cell and one just outside memory, and two rows of the table. -/
theorem witness_PlacedWordRunsNext :
    decodeTableWord 128 0x10 = some .halt ∧ decodeTableWord 32 0x0A = some .ret ∧
    ¬ OutOfMem (running 255 [] []) (running 255 [] []).pc.toInt ∧
    OutOfMem (running 256 [] []) (running 256 [] []).pc.toInt := by decide

theorem witness_FetchFaultsLeavePc :
    ((running 256 [] []).runsAlone ∧ OutOfMem (running 256 [] []) (running 256 [] []).pc.toInt) ∧
    ((running (-1) [] []).runsAlone ∧ OutOfMem (running (-1) [] []) (running (-1) [] []).pc.toInt) ∧
    ((running 255 [] [(255, .int 1)]).runsAlone ∧
      ¬ OutOfMem (running 255 [] [(255, .int 1)]) (running 255 [] [(255, .int 1)]).pc.toInt) ∧
    (∀ w, (running 255 [] [(255, .int 1)]).cell 255 ≠ .instr w) :=
  ⟨by decide, by decide, by decide, fun _ h => (nomatch h)⟩

/-- A step in each state of the machine, with and without a reset; each transition of R100. -/
theorem witness_OnlyTheListedTransitionsOccur :
    (after { sample 50 with host := [.reset] }).fsm = .load ∧ (after (loading .start)).fsm = .run ∧
    (after (loading .idle)).fsm = .load ∧ (after (sample 50)).fsm = .halted ∧
    (after (start 0 0x0F [] [])).fsm = .waitIn ∧ (after (waiting 3 .idle)).fsm = .waitIn ∧
    (after (waiting 3 (.respond .eos))).fsm = .faulted ∧ (after (waiting 3 (.respond .parseFail))).fsm = .run ∧
    (after { sample 50 with fsm := .halted }).fsm = .halted ∧
    (after { sample 50 with fsm := .faulted }).fsm = .faulted := by decide

/-- A fault of the fetch, a later one, and one of a completion. -/
theorem witness_FaultsArePrecise :
    ((sample 50).fsm ≠ .faulted ∧ (after (start 9 0x0A [] [])).fsm = .faulted ∧
      ¬ (after (start 9 0x0A [] [])).fetchFault) ∧
    ((running 256 [] []).fsm ≠ .faulted ∧ (after (running 256 [] [])).fsm = .faulted ∧
      (after (running 256 [] [])).fetchFault) ∧
    ((waiting 3 (.respond .eos)).fsm ≠ .faulted ∧ (after (waiting 3 (.respond .eos))).fsm = .faulted) := by decide

/-- Each cause that a step in RUN can record is recorded by some step. -/
theorem witness_FaultRecordTellsTheTruth :
    record (after (running 256 [] [])) = (.faulted, .fetchRange, 256, 256) ∧
    record (after (running 0 [] [])) = (.faulted, .fetchNotInstr, 0, 0) ∧
    record (after (start 0 0x11 [] [])) = (.faulted, .illegalInstr, 0, 0) ∧
    record (after (start 0 0x00000000_00000000_00000010_00000003 [] [])) = (.faulted, .regRange, 0, 16) ∧
    record (after (start 0 0x00000000_00000100_00000001_00000006 [] [])) = (.faulted, .memRange, 0, 256) ∧
    record (after (start 0 0x00000000_00000000_00000001_00000003 [(1, .text 1)] []))
      = (.faulted, .notInteger, 0, 1) ∧
    record (after (start 0 0x0A [(15, .int 49)] [(50, .text 1)])) = (.faulted, .retNotInteger, 0, 50) ∧
    record (after (start 0 0x0A [] [])) = (.faulted, .emptyReg, 0, 15) ∧
    record (after (start 0 0x0A [(15, .int 49)] [])) = (.faulted, .emptyMem, 0, 50) := by decide

/-- `Jump 0` at 0 with a host that does nothing. -/
theorem witness_JumpToItselfNeverEnds :
    (start 0 0x0B [] []).fsm = .run ∧ (start 0 0x0B [] []).host = [] ∧
    Fetches (start 0 0x0B [] []) (.jump (start 0 0x0B [] []).pc) :=
  ⟨rfl, rfl, 0x0B, by decide, by decide⟩

/-- A Move of an instruction and of data to the cell 255, a Push to it, a Call to the cell 0, and an Iinput's completion
at 255. -/
theorem witness_StoredCellsAreFetched :
    Stores (.moveReg (ind 1 0) (ind 0 7)) (sample 50) (.instr 0x10) 255 ∧
    Stores (.moveInt (ind 1 0) 5) (sample 50) (.int 5) 255 ∧
    Stores (.push (r 3)) (sample 255) (.text 1) 255 ∧ Stores (.call 9) (sample 0) (.int 7) 0 ∧
    (¬ OutOfMem (sample 50) 255 ∧ ¬ OutOfMem (sample 255) 255 ∧ ¬ OutOfMem (sample 0) 0) ∧
    ((waiting 255 (.respond (.int 1))).fsm = .waitIn ∧
      (waiting 255 (.respond (.int 1))).nextEvent = .respond (.int 1) ∧
      ¬ OutOfMem (waiting 255 (.respond (.int 1))) (waiting 255 (.respond (.int 1))).inAddr.toInt) ∧
    BitVec.toInt (255 : Word) = 255 :=
  ⟨.inl ⟨ind 1 0, .inl ⟨ind 0 7, rfl, .inr ⟨rfl, 7, ⟨0, by decide, by decide⟩, by decide⟩⟩, rfl, 255, by decide, by decide⟩,
    .inl ⟨ind 1 0, .inr (.inl ⟨5, rfl, rfl⟩), rfl, 255, by decide, by decide⟩,
    .inr (.inl ⟨r 3, 255, rfl, by decide, by decide, by decide⟩), .inr (.inr ⟨9, 0, rfl, by decide, by decide, by decide⟩),
    by decide, by decide, by decide⟩

theorem witness_StartBeginsExecutionAtZero :
    ((loading .idle).fsm = .load ∧ (loading .idle).nextEvent = .idle) ∧
    ((loading .start).fsm = .load ∧ (loading .start).nextEvent = .start) ∧
    ((waiting 3 .start).fsm ≠ .load ∧ (waiting 3 .start).nextEvent = .start) := by decide

/-- Loads at the ends of memory and of the register file, in and out of range, and outside LOAD. -/
theorem witness_LoaderWritesOnlyInLoad :
    ((loading (.loadMem 255 (.int 1))).fsm = .load ∧
      (loading (.loadMem 255 (.int 1))).nextEvent = .loadMem 255 (.int 1) ∧
      ¬ OutOfMem (loading (.loadMem 255 (.int 1))) 255) ∧
    ((loading (.loadMem 256 (.int 1))).nextEvent = .loadMem 256 (.int 1) ∧
      OutOfMem (loading (.loadMem 256 (.int 1))) 256) ∧
    ((loading (.loadReg 15 (.int 1))).nextEvent = .loadReg 15 (.int 1) ∧
      (0 : Int) ≤ 15 ∧ (15 : Int) < ((loading (.loadReg 15 (.int 1))).cfg.regCount : Int)) ∧
    ((loading (.loadReg 16 (.int 1))).nextEvent = .loadReg 16 (.int 1) ∧
      ((loading (.loadReg 16 (.int 1))).cfg.regCount : Int) ≤ 16) ∧
    ((loading (.loadReg (-1) (.int 1))).nextEvent = .loadReg (-1) (.int 1) ∧ (-1 : Int) < 0) ∧
    ((loading (.loadFlag true)).fsm = .load ∧ (loading (.loadFlag true)).nextEvent = .loadFlag true) ∧
    ((waiting 3 (.loadFlag true)).fsm ≠ .load ∧ (waiting 3 (.loadFlag true)).nextEvent = .loadFlag true) ∧
    ((waiting 3 (.loadMem 0 .empty)).fsm ≠ .load ∧ (waiting 3 (.loadMem 0 .empty)).nextEvent = .loadMem 0 .empty) ∧
    ((waiting 3 (.loadReg 0 .empty)).fsm ≠ .load ∧ (waiting 3 (.loadReg 0 .empty)).nextEvent = .loadReg 0 .empty) := by
  decide

theorem witness_TerminalStatesWaitForReset :
    ({ sample 50 with fsm := .halted, host := [.start] }.ended ∧
      { sample 50 with fsm := .halted, host := [.start] }.nextEvent ≠ .reset) ∧
    ({ sample 50 with fsm := .faulted }.ended ∧ { sample 50 with fsm := .faulted }.nextEvent ≠ .reset) := by decide

theorem witness_WaitInNeedsAResponse :
    (waiting 3 .start).fsm = .waitIn ∧ (waiting 3 .start).nextEvent ≠ .reset ∧
    ∀ x, (waiting 3 .start).nextEvent ≠ .respond x :=
  ⟨by decide, by decide, fun _ h => (nomatch h)⟩

theorem witness_ResetRestoresEveryValue :
    { sample 50 with host := [.reset, .start] }.nextEvent = .reset ∧ (waiting 3 .reset).nextEvent = .reset := by decide

theorem witness_StatusCodesAreTheListed :
    (loading .idle).fsm = .load ∧ (sample 50).fsm = .run ∧ (waiting 3 .idle).fsm = .waitIn ∧
    { sample 50 with fsm := .halted }.fsm = .halted ∧ { sample 50 with fsm := .faulted }.fsm = .faulted ∧
    (∀ c : FaultCause, { sample 50 with faultCause := c }.faultCause = c) ∧
    FaultCause.inputEos.code = FaultCause.inputEos.code :=
  ⟨rfl, rfl, rfl, rfl, rfl, fun _ => rfl, rfl⟩

theorem witness_ReadBackOnlyOutsideARun :
    ((loading .idle).fsm = .load ∧ 15 < (loading .idle).cfg.regCount ∧ ¬ OutOfMem (loading .idle) 255) ∧
    { sample 50 with fsm := .faulted }.ended ∧ (sample 50).fsm = .run ∧ (waiting 3 .idle).fsm = .waitIn := by decide

/-- The ends of the ranges of R8, met and missed. -/
theorem witness_ConfigurationsOutsideR8AreRefused :
    ((1 : Nat) ≤ 2147450880 ∧ (2147450880 : Nat) ≤ 2147450880 ∧ (255 : Nat) < 256 ∧ (256 : Nat) ≤ 256) ∧
    ¬ ((1 : Nat) ≤ 2147450881 ∧ (2147450881 : Nat) ≤ 2147450880 ∧ (255 : Nat) < 256 ∧ (256 : Nat) ≤ 256) ∧
    ¬ ((1 : Nat) ≤ 0 ∧ (0 : Nat) ≤ 2147450880 ∧ (0 : Nat) < 1 ∧ (1 : Nat) ≤ 256) := by decide

theorem witness_MemoryPortReadsWhatWasWritten :
    ¬ OutOfMem (sample 50) 0 ∧ ¬ OutOfMem (sample 50) 255 ∧ OutOfMem (sample 50) (-1) ∧ OutOfMem (sample 50) 256 ∧
    Memory.wf (sample 50).mem = true := by decide

/-- For the frames: every instruction answers a next state (a Pop here), and a register it may not write. -/
theorem witness_OnlyListedRegistersChange :
    (∃ t, exec (.pop (r 2)) (sample 254) = .next t) ∧ ¬ WritesReg (sample 254).cfg (.pop (r 2)) 3 :=
  ⟨⟨_, rfl⟩, by unfold WritesReg; decide⟩

/-- A form that stores, at 255, and one that does not. -/
theorem witness_OnlyTheStoredCellChanges :
    (∃ t, exec (.push (r 2)) (sample 255) = .next t) ∧ storeAddress (.push (r 2)) (sample 255) = some 255 ∧
    (∃ t, exec (.pop (r 2)) (sample 254) = .next t) ∧ storeAddress (.pop (r 2)) (sample 254) = none :=
  ⟨⟨_, rfl⟩, by decide, ⟨_, rfl⟩, by decide⟩

/-- An instruction that completes and one that faults. -/
theorem witness_PcAfterEachInstruction :
    (∃ t, exec (.pop (r 2)) (sample 254) = .next t ∧ t.fsm ≠ .faulted) ∧ (sample 254).fsm ≠ .faulted ∧
    (∃ t, exec (.pop (r 2)) (sample 255) = .next t ∧ t.fsm = .faulted) ∧ (sample 255).fsm ≠ .faulted :=
  ⟨⟨_, rfl, by decide⟩, by decide, ⟨_, rfl, by decide⟩, by decide⟩

theorem witness_FlagIsWrittenAndReadOnlyWhereListed :
    (∃ t, exec (.jumpIfTrue 3) (sample 50) = .next t) ∧ (∃ t, exec (.pop (r 2)) (sample 254) = .next t) ∧
    (∀ a b, Instr.jumpIfTrue 3 ≠ .testEquals a b) ∧ (∀ addr, Instr.pop (r 2) ≠ .jumpIfTrue addr) :=
  ⟨⟨_, rfl⟩, ⟨_, rfl⟩, fun _ _ h => (nomatch h), fun _ h => (nomatch h)⟩

theorem witness_TheRestOfTheStateIsFramed :
    (∃ t, exec (.pop (r 2)) (sample 254) = .next t ∧ t.fsm ≠ .faulted) ∧ (∀ a, Instr.pop (r 2) ≠ .echo a) ∧
    (∀ addr, Instr.pop (r 2) ≠ .iinput addr) ∧ Instr.pop (r 2) ≠ .halt :=
  ⟨⟨_, rfl, by decide⟩, fun _ h => (nomatch h), fun _ h => (nomatch h), fun h => (nomatch h)⟩

theorem witness_InstructionsDoNotReadHiddenState :
    ∃ t, exec (.echo (r 2)) (sample 50) = .next t ∧ t.output = (sample 50).output ++ [.int 256] :=
  ⟨_, rfl, by decide⟩

theorem witness_OutputGrowsOnlyByEcho :
    (∃ t, step (start 0 0x0E [(0, .int 9)] []) = .next t ∧ t.output = [.int 9]) ∧
    (start 0 0x0E [(0, .int 9)] []).nextEvent ≠ .reset :=
  ⟨⟨_, rfl, by decide⟩, by decide⟩

theorem witness_ParametersNeverChange : ∃ t, step (sample 50) = .next t := ⟨_, rfl⟩

/-- A state of the invariant in which an instruction runs; it is not the state of reset. -/
theorem witness_EveryStepKeepsTheMachineInvariant :
    MachineInv (sample 50) ∧ ∃ t, step (sample 50) = .next t ∧ t.fsm = .halted :=
  ⟨⟨by decide, by decide, by decide, by decide, by decide, by decide, by decide, by decide, by decide, by decide,
    by decide, by decide⟩, _, rfl, by decide⟩

/-- A state reached from reset by a load and a start. -/
theorem witness_EveryReachableStateMeetsTheInvariant :
    ∃ t, Reaches (State.resetOf Config.reference [.loadMem 0 (.instr 0x10), .start]) t ∧ t.fsm = .run ∧
      t.cell 0 = .instr 0x10 :=
  ⟨_, .next _ _ _ (.next _ _ _ (.here _) rfl) rfl, by decide, by decide⟩

end Sys2Proof.Tests
end

section
/-! PROOFS. The construction of a configuration: what it answers, once for each side of R8 (00_scope.md R8, R9). -/

namespace Sys2Proof

/-- R8 with its bound on MEM_SIZE as the numeral it is, 2^31 - 32768 = 2147450880. -/
theorem configOk_iff {n m sp : Nat} : ConfigOk n m sp ↔ 1 ≤ n ∧ n ≤ 2147450880 ∧ sp < m ∧ m ≤ 256 := by
  have memSizeBound : 2 ^ 31 - 32768 = 2147450880 := by norm_num
  rw [ConfigOk, memSizeBound]

@[simp] theorem Config.build?_of_ok {n m sp : Nat} (h : ConfigOk n m sp) :
    Config.build? n m sp = some ⟨n, m, sp, h⟩ :=
  dif_pos h

@[simp] theorem Config.build?_of_not_ok {n m sp : Nat} (h : ¬ ConfigOk n m sp) : Config.build? n m sp = none :=
  dif_neg h

/-- Settles O45, by the two sides of the constraints of R8. -/
theorem configurationsOutsideR8AreRefused : Obligations.ConfigurationsOutsideR8AreRefused := by
  intro n m sp
  rw [← configOk_iff]
  constructor
  · intro inside
    exact ⟨⟨n, m, sp, inside⟩, Config.build?_of_ok inside, rfl, rfl, rfl⟩
  · exact Config.build?_of_not_ok

end Sys2Proof
end

section
/-! PROOFS. What an instruction changes in its own step and what it leaves: registers (10_state.md R23), pc (R28), and the
fields R32, R35, R108 and R204 speak of. A completed step is read off the instruction's `Effect`; a faulting one changes
only what `enterFaulted` writes. -/

namespace Sys2Proof.Machine

/-! ## The forms of effect -/

/-- From `s` to `t` nothing but registers and memory is written. -/
def OnlyStorage (s t : State) : Prop := ∃ (regs : RegFile) (mem : Memory), t = { s with regs := regs, mem := mem }

theorem RegEffect.onlyStorage {s t : State} {r : Nat} (h : RegEffect s t r) : OnlyStorage s t := by
  obtain ⟨-, v, rfl⟩ := h
  exact ⟨_, _, rfl⟩

theorem MoveEffect.onlyStorage {s t : State} {d : Descriptor} (h : MoveEffect s t d) : OnlyStorage s t := by
  obtain ⟨-, hreg⟩ | ⟨-, a, v, -, -, -, rfl⟩ := h
  · exact RegEffect.onlyStorage hreg
  · exact ⟨_, _, rfl⟩

theorem PushEffect.onlyStorage {s t : State} (h : PushEffect s t) : OnlyStorage s t := by
  obtain ⟨sp, v, w, -, -, -, rfl⟩ := h
  exact ⟨_, _, rfl⟩

theorem OnlyStorage.pc {s t : State} (h : OnlyStorage s t) : t.pc = s.pc := by
  obtain ⟨regs, mem, rfl⟩ := h
  rfl

theorem OnlyStorage.exists_setPc {s u : State} (h : OnlyStorage s u) (p : Word) :
    ∃ (regs : RegFile) (mem : Memory) (q : Word), u.setPc p = { s with regs := regs, mem := mem, pc := q } := by
  obtain ⟨regs, mem, rfl⟩ := h
  exact ⟨regs, mem, p, rfl⟩

/-- The fields a completed instruction writes: registers, memory and pc, or the flag in TestEquals, the output in Echo,
IN_ADDR and STATE in Iinput, STATE in Halt. -/
theorem Effect.form {i : Instr} {s t : State} (h : Effect i s t) :
    (∃ (regs : RegFile) (mem : Memory) (p : Word), t = { s with regs := regs, mem := mem, pc := p }) ∨
    (∃ a b f, i = .testEquals a b ∧ t = s.setFlag f) ∨
    (∃ a v, i = .echo a ∧ SourceHolds s a v ∧ t = s.emit v) ∨
    (∃ addr, i = .iinput addr ∧ t = (s.setInAddr addr).setFsm .waitIn) ∨
    (i = .halt ∧ t = s.setFsm .halted) := by
  cases i with
  | add a b c | mul a b c | increment a | decrement a | load a n =>
    exact .inl ((RegEffect.onlyStorage h).exists_setPc t.pc)
  | moveReg d c | moveInt d n | moveText d n => exact .inl ((MoveEffect.onlyStorage h).exists_setPc t.pc)
  | push a => exact .inl ((PushEffect.onlyStorage h).exists_setPc t.pc)
  | pop a =>
    obtain ⟨-, v, w, rfl⟩ := h
    exact .inl ⟨_, _, _, rfl⟩
  | call addr =>
    obtain ⟨u, hpush, rfl⟩ := h
    exact .inl ((PushEffect.onlyStorage hpush).exists_setPc addr)
  | ret =>
    obtain ⟨sp, r, v, -, -, rfl⟩ := h
    exact .inl ⟨_, _, _, rfl⟩
  | jump addr =>
    obtain rfl := h
    exact .inl ⟨_, _, _, rfl⟩
  | jumpIfTrue addr =>
    obtain rfl := h
    refine .inl ⟨s.regs, s.mem, if s.flag then addr else s.pc, ?_⟩
    split <;> rfl
  | testEquals a b =>
    obtain ⟨f, rfl⟩ := h
    exact .inr (.inl ⟨a, b, f, rfl, rfl⟩)
  | echo a =>
    obtain ⟨v, hsrc, rfl⟩ := h
    exact .inr (.inr (.inl ⟨a, v, rfl, hsrc, rfl⟩))
  | iinput addr => exact .inr (.inr (.inr (.inl ⟨addr, rfl, h⟩)))
  | halt => exact .inr (.inr (.inr (.inr ⟨rfl, h⟩)))

/-! ## The rest of the frame -/

/-- A completed instruction writes neither the parameters, CUR_PC nor the host's events, and no part of the fault record. -/
theorem Effect.frame {i : Instr} {s t : State} (h : Effect i s t) :
    t.cfg = s.cfg ∧ t.curPc = s.curPc ∧ t.host = s.host ∧
      t.faultCause = s.faultCause ∧ t.faultPc = s.faultPc ∧ t.faultInfo = s.faultInfo := by
  obtain ⟨_, _, _, rfl⟩ | ⟨_, _, _, -, rfl⟩ | ⟨_, _, -, -, rfl⟩ | ⟨_, -, rfl⟩ | ⟨-, rfl⟩ := h.form <;>
    exact ⟨rfl, rfl, rfl, rfl, rfl, rfl⟩

theorem Effect.output {i : Instr} {s t : State} (h : Effect i s t) (hi : ∀ a, i ≠ .echo a) : t.output = s.output := by
  obtain ⟨_, _, _, rfl⟩ | ⟨_, _, _, -, rfl⟩ | ⟨a, _, rfl, -, -⟩ | ⟨_, -, rfl⟩ | ⟨-, rfl⟩ := h.form
  case inr.inr.inl => exact absurd rfl (hi a)
  all_goals rfl

theorem Effect.inAddr {i : Instr} {s t : State} (h : Effect i s t) (hi : ∀ addr, i ≠ .iinput addr) :
    t.inAddr = s.inAddr := by
  obtain ⟨_, _, _, rfl⟩ | ⟨_, _, _, -, rfl⟩ | ⟨_, _, -, -, rfl⟩ | ⟨addr, rfl, -⟩ | ⟨-, rfl⟩ := h.form
  case inr.inr.inr.inl => exact absurd rfl (hi addr)
  all_goals rfl

theorem Effect.flag {i : Instr} {s t : State} (h : Effect i s t) (hi : ∀ a b, i ≠ .testEquals a b) :
    t.flag = s.flag := by
  obtain ⟨_, _, _, rfl⟩ | ⟨a, b, _, rfl, -⟩ | ⟨_, _, -, -, rfl⟩ | ⟨_, -, rfl⟩ | ⟨-, rfl⟩ := h.form
  case inr.inl => exact absurd rfl (hi a b)
  all_goals rfl

/-- A completed instruction leaves STATE, but for Iinput, which waits, and Halt, which ends the run. -/
theorem Effect.fsm {i : Instr} {s t : State} (h : Effect i s t) :
    t.fsm = s.fsm ∨ (∃ addr, i = .iinput addr ∧ t.fsm = .waitIn) ∨ (i = .halt ∧ t.fsm = .halted) := by
  obtain ⟨_, _, _, rfl⟩ | ⟨_, _, _, -, rfl⟩ | ⟨_, _, -, -, rfl⟩ | ⟨addr, rfl, rfl⟩ | ⟨rfl, rfl⟩ := h.form
  case inr.inr.inr.inl => exact .inr (.inl ⟨addr, rfl, rfl⟩)
  case inr.inr.inr.inr => exact .inr (.inr ⟨rfl, rfl⟩)
  all_goals exact .inl rfl

theorem Effect.safe {i : Instr} {s t : State} (h : Effect i s t) (hs : s.safe) : t.safe := by
  obtain hf | ⟨_, -, hf⟩ | ⟨-, hf⟩ := h.fsm <;> simp [State.safe, hf, hs]

/-- Settles O51: a completed instruction by the form of its effect, a faulting one by what `enterFaulted` writes. -/
theorem theRestOfTheStateIsFramed : Obligations.TheRestOfTheStateIsFramed := by
  intro i s t h
  rcases exec_cases h with effect | ⟨e, -, rfl⟩
  · obtain ⟨cfg, curPc, host, record⟩ := effect.frame
    refine ⟨cfg, curPc, host, effect.output, effect.inAddr, fun notIinput notHalt => ?_, fun _ => record⟩
    obtain same | ⟨addr, rfl, -⟩ | ⟨rfl, -⟩ := effect.fsm
    · exact .inl same
    · exact absurd rfl (notIinput addr)
    · exact absurd rfl notHalt
  · exact ⟨rfl, rfl, rfl, fun _ => rfl, fun _ => rfl, fun _ _ => .inr rfl, fun safe => absurd rfl safe⟩

/-! ## Registers -/

theorem RegEffect.reg_other {s t : State} {r q : Nat} (h : RegEffect s t r) (hq : q ≠ r) : t.reg q = s.reg q := by
  obtain ⟨-, v, rfl⟩ := h
  simp [State.reg_setReg, hq]

theorem MoveEffect.reg_other {s t : State} {d : Descriptor} {q : Nat} (h : MoveEffect s t d)
    (hq : ¬ (d.ind = false ∧ q = d.idx.toNat)) : t.reg q = s.reg q := by
  obtain ⟨hd, hreg⟩ | ⟨-, a, v, -, -, -, rfl⟩ := h
  · exact RegEffect.reg_other hreg fun hqr => hq ⟨hd, hqr⟩
  · rfl

theorem PushEffect.reg_other {s t : State} {q : Nat} (h : PushEffect s t) (hq : q ≠ s.cfg.spIndex) :
    t.reg q = s.reg q := by
  obtain ⟨sp, v, w, -, -, -, rfl⟩ := h
  simp [State.reg_setReg, hq]

/-- A completed instruction leaves every register that the table of R23 does not list for it. -/
theorem Effect.reg_unlisted {i : Instr} {s t : State} {q : Nat} (h : Effect i s t) (hq : ¬ WritesReg s.cfg i q) :
    t.reg q = s.reg q := by
  cases i with
  | add a b c | mul a b c | increment a | decrement a | load a n => exact RegEffect.reg_other h hq
  | moveReg d c | moveInt d n | moveText d n => exact MoveEffect.reg_other h hq
  | push a => exact PushEffect.reg_other h hq
  | pop a =>
    obtain ⟨-, v, w, rfl⟩ := h
    obtain ⟨notSp, notA⟩ := not_or.mp hq
    simp [State.reg_setReg, notSp, notA]
  | call addr =>
    obtain ⟨u, hpush, rfl⟩ := h
    rw [State.setPc_reg]
    exact PushEffect.reg_other hpush hq
  | ret =>
    obtain ⟨sp, r, v, -, -, rfl⟩ := h
    have notSp : q ≠ s.cfg.spIndex := hq
    simp [State.reg_setReg, notSp]
  | jump addr | iinput addr | halt =>
    obtain rfl := h
    rfl
  | jumpIfTrue addr =>
    obtain rfl := h
    split <;> rfl
  | testEquals a b =>
    obtain ⟨f, rfl⟩ := h
    rfl
  | echo a =>
    obtain ⟨v, -, rfl⟩ := h
    rfl

/-- Settles O47, by the instruction's effect; a fault writes no register. -/
theorem onlyListedRegistersChange : Obligations.OnlyListedRegistersChange := by
  intro i s t q h hq
  rcases exec_cases h with effect | ⟨e, -, rfl⟩
  · exact effect.reg_unlisted hq
  · rfl

/-! ## pc -/

/-- The pc a completed instruction leaves is that of the table of R28. -/
theorem Effect.pcAfter {i : Instr} {s t : State} (h : Effect i s t) : PcAfter i s t.pc := by
  cases i with
  | add a b c | mul a b c | increment a | decrement a | load a n => exact (RegEffect.onlyStorage h).pc
  | moveReg d c | moveInt d n | moveText d n => exact (MoveEffect.onlyStorage h).pc
  | push a => exact (PushEffect.onlyStorage h).pc
  | pop a =>
    obtain ⟨-, v, w, rfl⟩ := h
    rfl
  | call addr =>
    obtain ⟨u, -, rfl⟩ := h
    rfl
  | ret =>
    obtain ⟨sp, r, v, hsp, hcell, rfl⟩ := h
    exact ⟨sp, hsp, hcell⟩
  | jump addr | iinput addr | halt =>
    obtain rfl := h
    rfl
  | jumpIfTrue addr =>
    obtain rfl := h
    exact apply_ite State.pc _ _ _
  | testEquals a b =>
    obtain ⟨f, rfl⟩ := h
    rfl
  | echo a =>
    obtain ⟨v, -, rfl⟩ := h
    rfl

/-- Settles O49: an instruction that reaches its effect does not fault, and one that faults commits no pc. -/
theorem pcAfterEachInstruction : Obligations.PcAfterEachInstruction := by
  intro i s t h safe
  rcases exec_cases h with effect | ⟨e, -, rfl⟩
  · exact ⟨fun _ => effect.pcAfter, fun faulted => absurd faulted (effect.safe safe)⟩
  · exact ⟨fun notFaulted => absurd rfl notFaulted, fun _ => rfl⟩

end Sys2Proof.Machine
end

section
/-! PROOFS. What an instruction does not read. A change of the state that touches nothing an operand reads changes nothing an
instruction does, but for what it itself is about; another value of the flag is such a change (10_state.md R31). -/

namespace Sys2Proof.Machine

/-- `g` overwrites fields with fixed values, and none that an operand, the stack or a return address is read from. -/
structure Unread (g : State → State) : Prop where
  cfg : ∀ s, (g s).cfg = s.cfg
  regs : ∀ s, (g s).regs = s.regs
  mem : ∀ s, (g s).mem = s.mem
  pc : ∀ s, (g s).pc = s.pc
  setReg : ∀ s i v, (g s).setReg i v = g (s.setReg i v)
  setCell : ∀ s a v, (g s).setCell a v = g (s.setCell a v)
  setPc : ∀ s p, (g s).setPc p = g (s.setPc p)
  setFlag : ∀ s f, g ((g s).setFlag f) = g (s.setFlag f)
  emit : ∀ s v, g ((g s).emit v) = g (s.emit v)
  setInAddr_setFsm : ∀ s a f, g (((g s).setInAddr a).setFsm f) = g ((s.setInAddr a).setFsm f)
  setFsm : ∀ s f, g ((g s).setFsm f) = g (s.setFsm f)
  enterFaulted : ∀ s e, g (Machine.enterFaulted (g s) e) = g (Machine.enterFaulted s e)
  idem : ∀ s, g (g s) = g s

theorem unread_setFlag (b : Bool) : Unread (·.setFlag b) where
  cfg _ := rfl
  regs _ := rfl
  mem _ := rfl
  pc _ := rfl
  setReg _ _ _ := rfl
  setCell _ _ _ := rfl
  setPc _ _ := rfl
  setFlag _ _ := rfl
  emit _ _ := rfl
  setInAddr_setFsm _ _ _ := rfl
  setFsm _ _ := rfl
  enterFaulted _ _ := rfl
  idem _ := rfl

section
variable {g : State → State} (hg : Unread g) (s : State)
include hg

/-! ## Operations -/

theorem Unread.regRead (i : Nat) : regRead (g s) i = regRead s i := by
  unfold Machine.regRead State.reg
  rw [hg.cfg, hg.regs]

theorem Unread.regWrite (i : Nat) (v : Value) : regWrite (g s) i v = g <$> regWrite s i v := by
  unfold Machine.regWrite
  rw [hg.cfg, hg.setReg]
  split <;> rfl

theorem Unread.portRead (a : Int) : (g s).portRead a = s.portRead a := by
  unfold State.portRead State.inMem State.cell
  rw [hg.cfg, hg.mem]

theorem Unread.portWrite (a : Int) (v : Value) : (g s).portWrite a v = (s.portWrite a v).map g := by
  unfold State.portWrite State.inMem
  rw [hg.cfg, hg.setCell]
  split <;> rfl

theorem Unread.memRead (a : Int) : memRead (g s) a = memRead s a := by
  unfold Machine.memRead
  rw [hg.portRead]

theorem Unread.memWrite (a : Int) (v : Value) : memWrite (g s) a v = g <$> memWrite s a v := by
  unfold Machine.memWrite
  rw [hg.portWrite]
  cases s.portWrite a v <;> rfl

theorem Unread.intOperand (d : Descriptor) : intOperand (g s) d = intOperand s d := by
  simp only [Machine.intOperand, hg.regRead]

theorem Unread.stackAddress : stackAddress (g s) = stackAddress s := by
  simp only [Machine.stackAddress, hg.regRead, hg.cfg]

theorem Unread.effectiveAddress (d : Descriptor) : effectiveAddress (g s) d = effectiveAddress s d := by
  simp only [Machine.effectiveAddress, hg.intOperand]

theorem Unread.resolve (d : Descriptor) : resolve (g s) d = resolve s d := by
  simp only [Machine.resolve, hg.effectiveAddress, hg.memRead, hg.regRead]

theorem Unread.storeOperand (d : Descriptor) (v : Value) : storeOperand (g s) d v = g <$> storeOperand s d v := by
  simp only [Machine.storeOperand, hg.effectiveAddress, hg.memWrite, hg.regWrite]
  split
  · rw [map_bind]
  · rfl

theorem Unread.pushVal (v : Value) : pushVal (g s) v = g <$> pushVal s v := by
  simp only [Machine.pushVal, hg.stackAddress, hg.memWrite, hg.regWrite, hg.cfg, map_bind, bind_map_left]

theorem Unread.popVal : popVal (g s) = (fun p => (p.1, g p.2)) <$> popVal s := by
  simp only [Machine.popVal, hg.stackAddress, hg.memRead, hg.regWrite, hg.cfg, map_bind, bind_map_left, map_pure]

/-! ## Instructions -/

theorem Unread.binaryOp (f : Word → Word → Word) (a b c : Descriptor) :
    binaryOp f a b c (g s) = g <$> binaryOp f a b c s := by
  simp only [Machine.binaryOp, hg.intOperand, hg.regWrite, map_bind]

theorem Unread.unaryOp (f : Word → Word) (a : Descriptor) : unaryOp f a (g s) = g <$> unaryOp f a s := by
  simp only [Machine.unaryOp, hg.intOperand, hg.regWrite, map_bind]

/-- A staged result of `g` is the same result once `g` is applied to it. -/
theorem Unread.map_map (x : Checked State) : g <$> g <$> x = g <$> x := by
  simp only [Functor.map_map, hg.idem]

/-- What an instruction computes is the same in `g s` as in `s` but for what `g` overwrites. JumpIfTrue reads the flag, so it
asks for the flag to be left alone. -/
theorem Unread.instrOp (i : Instr) (hi : (∀ addr, i ≠ .jumpIfTrue addr) ∨ (g s).flag = s.flag) :
    g <$> instrOp i (g s) = g <$> instrOp i s := by
  cases i with
  | add a b c | mul a b c => exact (congrArg _ (hg.binaryOp s _ a b c)).trans (hg.map_map _)
  | increment a | decrement a => exact (congrArg _ (hg.unaryOp s _ a)).trans (hg.map_map _)
  | moveReg d c =>
    simp only [Machine.instrOp, moveRegOp, hg.resolve, hg.storeOperand, map_bind, hg.map_map]
  | moveInt d n | moveText d n => exact (congrArg _ (hg.storeOperand s d _)).trans (hg.map_map _)
  | load a n => simp only [Machine.instrOp, loadOp, hg.memRead, hg.regWrite, map_bind, hg.map_map]
  | push a => simp only [Machine.instrOp, pushOp, hg.regRead, hg.pushVal, map_bind, hg.map_map]
  | pop a =>
    simp only [Machine.instrOp, popOp, hg.popVal, hg.regWrite, map_bind, bind_map_left, hg.map_map]
  | call addr =>
    simp only [Machine.instrOp, callOp, hg.pushVal, hg.pc, hg.setPc, map_bind, bind_map_left, map_pure, hg.idem]
  | ret =>
    simp only [Machine.instrOp, retOp, hg.stackAddress, hg.memRead, hg.regWrite, hg.cfg, hg.setPc, map_bind,
      bind_map_left, map_pure, hg.idem]
  | jump addr => exact congrArg Except.ok (by rw [hg.setPc, hg.idem])
  | jumpIfTrue addr =>
    have sameFlag : (g s).flag = s.flag := hi.resolve_left fun other => other addr rfl
    refine congrArg Except.ok ?_
    rw [sameFlag, hg.setPc, ← apply_ite g, hg.idem]
  | testEquals a b => simp only [Machine.instrOp, testEqualsOp, hg.regRead, map_bind, map_pure, hg.setFlag]
  | echo a => simp only [Machine.instrOp, echoOp, hg.resolve, map_bind, map_pure, hg.emit]
  | iinput addr => exact congrArg Except.ok (hg.setInAddr_setFsm s addr .waitIn)
  | halt => exact congrArg Except.ok (hg.setFsm s .halted)

/-- Two computations with the same result but for what `g` overwrites are committed alike. -/
theorem Unread.commit {x y : Checked State} {t : State} (same : g <$> x = g <$> y) (h : commit s y = .next t) :
    ∃ u, Machine.commit (g s) x = .next u ∧ g u = g t := by
  obtain rfl | ⟨e, rfl, rfl⟩ := commit_next.mp h <;> cases x
  case inl.ok u => exact ⟨u, rfl, Except.ok.inj same⟩
  case inl.error e => cases same
  case inr.ok u => cases same
  case inr.error e' =>
    obtain rfl : e' = e := Except.error.inj same
    exact ⟨_, rfl, hg.enterFaulted s e'⟩

/-- What an instruction answers is the same from `g s` as from `s` but for what `g` overwrites. -/
theorem Unread.exec {i : Instr} {t : State} (hi : (∀ addr, i ≠ .jumpIfTrue addr) ∨ (g s).flag = s.flag)
    (h : exec i s = .next t) : ∃ u, Machine.exec i (g s) = .next u ∧ g u = g t := by
  rw [exec_eq_commit] at h ⊢
  exact hg.commit s (hg.instrOp s i hi) h

end

/-- Settles O50: the writer by the form of an effect, the reader by `setFlag` overwriting what no other instruction reads. -/
theorem flagIsWrittenAndReadOnlyWhereListed : Obligations.FlagIsWrittenAndReadOnlyWhereListed := by
  intro i s t h
  constructor
  · intro notTestEquals
    rcases exec_cases h with effect | ⟨e, -, rfl⟩
    · exact effect.flag notTestEquals
    · rfl
  · intro notJumpIfTrue b
    obtain ⟨u, hu, same⟩ := (unread_setFlag b).exec s (.inl notJumpIfTrue) h
    exact ⟨u, hu, congrArg (·.setFlag t.flag) same.symm⟩

end Sys2Proof.Machine
end

section
/-! PROOFS. The codes the host reads: STATE, FAULT_CAUSE and the run result (10_state.md R33, R34; 60_exceptions.md R201). -/

namespace Sys2Proof.Machine

/-- The code of a cause is its place in the list of R201. -/
theorem FaultCause.ofNat_code (c : FaultCause) : FaultCause.ofNat c.code.toNat = c := by cases c <;> rfl

theorem FaultCause.code_injective : Function.Injective FaultCause.code :=
  fun c d same => by rw [← c.ofNat_code, same, d.ofNat_code]

theorem FaultCause.code_le (c : FaultCause) : c.code.toNat ≤ 10 := by cases c <;> decide

theorem State.statusState_eq {s : State} {f : Fsm} (h : s.fsm = f) : s.statusState = f.code := congrArg Fsm.code h

theorem State.statusCause_eq {s : State} {c : FaultCause} (h : s.faultCause = c) : s.statusCause = c.code :=
  congrArg FaultCause.code h

/-- Settles O43: each code by the value it is the code of, and no code shared since each names its cause. -/
theorem statusCodesAreTheListed : Obligations.StatusCodesAreTheListed := by
  refine ⟨fun s => ?_, fun s => ?_, fun _ _ same => FaultCause.code_injective same, FaultCause.code_le⟩
  · and_intros <;> intro h
    all_goals exact ⟨State.statusState_eq h, by simp [State.runResult, h]⟩
  · and_intros <;> exact State.statusCause_eq

end Sys2Proof.Machine
end

section
/-! PROOFS. What a step can be, said once by cases, and the parameters under a step (00_scope.md R8; 10_state.md R20). -/

namespace Sys2Proof.Machine

/-! ## The cases of a step -/

/-- All that the core can do by itself: an instruction in RUN, and nothing in any other state. -/
theorem coreStep_cases {s t : State} (h : coreStep s = .next t) :
    (s.fsm = .run ∧ runInstr s = .next t) ∨ (s.fsm ≠ .run ∧ t = s) := by
  unfold coreStep at h
  split at h
  case h_1 hrun => exact .inl ⟨hrun, h⟩
  all_goals
    rename_i hfsm
    cases h
    exact .inr ⟨by simp [hfsm], rfl⟩

/-- All that an accepted host event can be: a reset, a `start` or a load in LOAD, or a response in WAIT_IN (R101, R182, R230,
R232). -/
theorem hostAct_cases {e : HostEvent} {s t : State} (h : hostAct e s = some t) :
    t = resetCore s ∨
    (s.fsm = .load ∧ t = (s.setPc 0).setFsm .run) ∨
    (s.fsm = .load ∧ ∃ (a : Nat) (v : Value), a < s.cfg.memSize ∧ t = s.setCell a v) ∨
    (s.fsm = .load ∧ ∃ (i : Nat) (v : Value), i < s.cfg.regCount ∧ t = s.setReg i v) ∨
    (s.fsm = .load ∧ ∃ b, t = s.setFlag b) ∨
    (s.fsm = .waitIn ∧ ∃ r, t = iinputComplete r s) := by
  cases e with
  | idle => simp [hostAct] at h
  | reset => exact .inl (Option.some.inj h).symm
  | start =>
    obtain ⟨hload, ⟨⟩⟩ := Option.ite_none_right_eq_some.mp h
    exact .inr (.inl ⟨hload, rfl⟩)
  | loadMem a v =>
    obtain ⟨hload, hwrite⟩ := Option.ite_none_right_eq_some.mp h
    obtain ⟨⟨ha, ha'⟩, rfl⟩ := portWrite_some.mp hwrite
    exact .inr (.inr (.inl ⟨hload, a.toNat, v, by omega, rfl⟩))
  | loadReg i v =>
    obtain ⟨⟨hload, hi, hi'⟩, ⟨⟩⟩ := Option.ite_none_right_eq_some.mp h
    exact .inr (.inr (.inr (.inl ⟨hload, i.toNat, v, by omega, rfl⟩)))
  | loadFlag b =>
    obtain ⟨hload, ⟨⟩⟩ := Option.ite_none_right_eq_some.mp h
    exact .inr (.inr (.inr (.inr (.inl ⟨hload, b, rfl⟩))))
  | respond r =>
    obtain ⟨hwait, ⟨⟩⟩ := Option.ite_none_right_eq_some.mp h
    exact .inr (.inr (.inr (.inr (.inr ⟨hwait, r, rfl⟩))))

/-- All that a step can be: an accepted host event, an instruction in RUN, or nothing but the event taken. -/
theorem step_cases {s t : State} (h : step s = .next t) :
    hostAct s.nextEvent s.eventTaken = some t ∨
    (s.fsm = .run ∧ runInstr s.eventTaken = .next t) ∨
    (s.fsm ≠ .run ∧ t = s.eventTaken) := by
  rw [step_by_event] at h
  split at h
  · rename_i u hact
    cases h
    exact .inl hact
  · exact .inr (coreStep_cases h)

/-! ## Parameters -/

theorem exec_cfg {i : Instr} {s t : State} (h : exec i s = .next t) : t.cfg = s.cfg := by
  rcases exec_cases h with effect | ⟨e, -, rfl⟩
  · obtain ⟨cfg, -⟩ := effect.frame
    exact cfg
  · rfl

theorem runInstr_cfg {s t : State} (h : runInstr s = .next t) : t.cfg = s.cfg := by
  obtain ⟨-, rfl⟩ | ⟨-, -, rfl⟩ | ⟨w, e, -, -, rfl⟩ | ⟨w, i, -, -, hexec⟩ := runInstr_cases h
  case inr.inr.inr => exact (exec_cfg hexec).trans rfl
  all_goals rfl

theorem iinputComplete_cfg (r : InResponse) (s : State) : (iinputComplete r s).cfg = s.cfg := by
  obtain ⟨n, -, -, h⟩ | ⟨n, -, -, h⟩ | ⟨-, h⟩ | ⟨-, h⟩ := iinputComplete_cases r s <;> rw [h] <;> rfl

theorem hostAct_cfg {e : HostEvent} {s t : State} (h : hostAct e s = some t) : t.cfg = s.cfg := by
  obtain rfl | ⟨-, rfl⟩ | ⟨-, a, v, -, rfl⟩ | ⟨-, i, v, -, rfl⟩ | ⟨-, b, rfl⟩ | ⟨-, r, rfl⟩ := hostAct_cases h
  case inr.inr.inr.inr.inr => exact iinputComplete_cfg r s
  all_goals rfl

/-- Settles O54, by what a step can be. -/
theorem parametersNeverChange : Obligations.ParametersNeverChange := by
  intro s t h
  obtain hact | ⟨-, hrun⟩ | ⟨-, rfl⟩ := step_cases h
  · exact (hostAct_cfg hact).trans s.eventTaken_cfg
  · exact (runInstr_cfg hrun).trans s.eventTaken_cfg
  · rfl

end Sys2Proof.Machine
end

section
/-! PROOFS. The invariant of the machine under a step: what is stored stays canonical, in range and filled; the fault record,
pc and the latches agree with STATE (10_state.md R21, R29, R32; 60_exceptions.md R204; 70_reset_and_hazards.md R231). -/

namespace Sys2Proof.Machine

/-! ## Causes raised after the fetch -/

/-- The cause of a fault that comes after a successful fetch. -/
def FaultCause.afterFetch : FaultCause → Bool
  | .none => false
  | .fetchRange => false
  | .fetchNotInstr => false
  | .illegalInstr => true
  | .regRange => true
  | .memRange => true
  | .notInteger => true
  | .retNotInteger => true
  | .emptyReg => true
  | .emptyMem => true
  | .inputEos => true

theorem FaultCause.afterFetch_iff {c : FaultCause} :
    c.afterFetch = true ↔ c ≠ .none ∧ ¬ (c = .fetchRange ∨ c = .fetchNotInstr) := by
  cases c <;> decide

/-- Whatever the computation raises, its cause is not one of the fetch. -/
def RaisesAfterFetch {α : Type} (x : Checked α) : Prop := ∀ e, x = .error e → e.cause.afterFetch = true

theorem RaisesAfterFetch.ok {α : Type} (a : α) : RaisesAfterFetch (.ok a : Checked α) := fun _ h => nomatch h

theorem RaisesAfterFetch.bind {α β : Type} {x : Checked α} {f : α → Checked β} (hx : RaisesAfterFetch x)
    (hf : ∀ a, RaisesAfterFetch (f a)) : RaisesAfterFetch (x >>= f) := by
  intro e h
  obtain hraise | ⟨a, -, hraise⟩ := Checked.bind_error.mp h
  · exact hx e hraise
  · exact hf a e hraise

theorem regRead_raises (s : State) (i : Nat) : RaisesAfterFetch (regRead s i) := by
  intro e h
  obtain ⟨⟨-, hc⟩ | ⟨-, -, hc⟩, -⟩ := regRead_error.mp h <;> rw [hc] <;> rfl

theorem regWrite_raises (s : State) (i : Nat) (v : Value) : RaisesAfterFetch (regWrite s i v) := by
  intro e h
  obtain ⟨-, rfl⟩ := regWrite_error.mp h
  rfl

theorem memRead_raises (s : State) (a : Int) : RaisesAfterFetch (memRead s a) := by
  intro e h
  obtain ⟨⟨-, hc⟩ | ⟨-, -, -, hc⟩, -⟩ := memRead_error.mp h <;> rw [hc] <;> rfl

theorem memWrite_raises (s : State) (a : Int) (v : Value) : RaisesAfterFetch (memWrite s a v) := by
  intro e h
  obtain ⟨-, rfl⟩ := memWrite_error.mp h
  rfl

theorem expectInt_raises (v : Value) {c : FaultCause} (hc : c.afterFetch = true) (n : Int) :
    RaisesAfterFetch (expectInt v c n) := by
  intro e h
  obtain ⟨-, rfl⟩ := expectInt_error.mp h
  exact hc

theorem intOperand_raises (s : State) (d : Descriptor) : RaisesAfterFetch (intOperand s d) :=
  .bind (regRead_raises _ _) fun _ => expectInt_raises _ rfl _

theorem stackAddress_raises (s : State) : RaisesAfterFetch (stackAddress s) :=
  .bind (regRead_raises _ _) fun _ => expectInt_raises _ rfl _

theorem effectiveAddress_raises (s : State) (d : Descriptor) : RaisesAfterFetch (effectiveAddress s d) :=
  .bind (intOperand_raises s d) fun _ => .ok _

theorem resolve_raises (s : State) (d : Descriptor) : RaisesAfterFetch (resolve s d) := by
  unfold resolve
  split
  · exact .bind (effectiveAddress_raises s d) fun _ => memRead_raises _ _
  · exact regRead_raises _ _

theorem storeOperand_raises (s : State) (d : Descriptor) (v : Value) : RaisesAfterFetch (storeOperand s d v) := by
  unfold storeOperand
  split
  · exact .bind (effectiveAddress_raises s d) fun _ => memWrite_raises _ _ _
  · exact regWrite_raises _ _ _

theorem pushVal_raises (s : State) (v : Value) : RaisesAfterFetch (pushVal s v) :=
  .bind (stackAddress_raises s) fun _ => .bind (memWrite_raises _ _ _) fun _ => regWrite_raises _ _ _

theorem popVal_raises (s : State) : RaisesAfterFetch (popVal s) :=
  .bind (stackAddress_raises s) fun _ => .bind (memRead_raises _ _) fun _ => .bind (regWrite_raises _ _ _) fun _ => .ok _

theorem binaryOp_raises (f : Word → Word → Word) (a b c : Descriptor) (s : State) :
    RaisesAfterFetch (binaryOp f a b c s) :=
  .bind (intOperand_raises s b) fun _ => .bind (intOperand_raises s c) fun _ => regWrite_raises _ _ _

theorem unaryOp_raises (f : Word → Word) (a : Descriptor) (s : State) : RaisesAfterFetch (unaryOp f a s) :=
  .bind (intOperand_raises s a) fun _ => regWrite_raises _ _ _

/-- No instruction raises a cause of the fetch, or none. -/
theorem instrOp_raises (i : Instr) (s : State) : RaisesAfterFetch (instrOp i s) := by
  cases i with
  | add a b c | mul a b c => exact binaryOp_raises _ a b c s
  | increment a | decrement a => exact unaryOp_raises _ a s
  | moveReg d c => exact .bind (resolve_raises s c) fun _ => storeOperand_raises s d _
  | moveInt d n | moveText d n => exact storeOperand_raises s d _
  | load a n => exact .bind (memRead_raises _ _) fun _ => regWrite_raises _ _ _
  | push a => exact .bind (regRead_raises _ _) fun _ => pushVal_raises _ _
  | pop a => exact .bind (popVal_raises s) fun _ => regWrite_raises _ _ _
  | call addr => exact .bind (pushVal_raises _ _) fun _ => .ok _
  | ret =>
    exact .bind (stackAddress_raises s) fun _ => .bind (memRead_raises _ _) fun _ =>
      .bind (expectInt_raises _ rfl _) fun _ => .bind (regWrite_raises _ _ _) fun _ => .ok _
  | testEquals a b => exact .bind (regRead_raises _ _) fun _ => .bind (regRead_raises _ _) fun _ => .ok _
  | echo a => exact .bind (resolve_raises s a) fun _ => .ok _
  | jump addr | jumpIfTrue addr | iinput addr | halt => exact .ok _

/-! ## What is stored -/

/-- The part of the invariant about what is stored and sent: canonical arrays inside their ranges, and no Empty output. -/
structure StoredOk (cfg : Config) (regs : RegFile) (mem : Memory) (output : List Value) : Prop where
  regsCanonical : RegFile.wf regs = true
  regsBelow : Cells.below cfg.regCount regs = true
  memCanonical : Memory.wf mem = true
  memBelow : Cells.below cfg.memSize mem = true
  outputFilled : ∀ v ∈ output, v ≠ .empty

/-- `StoredOk` of a state's own fields. -/
abbrev State.storedOk (s : State) : Prop := StoredOk s.cfg s.regs s.mem s.output

theorem MachineInv.storedOk {s : State} (h : MachineInv s) : s.storedOk := { h with }

theorem State.storedOk_resetCore (s : State) : (resetCore s).storedOk := ⟨rfl, rfl, rfl, rfl, by simp⟩

theorem State.storedOk_setReg {s : State} (h : s.storedOk) {i : Nat} (hi : i < s.cfg.regCount) (v : Value) :
    (s.setReg i v).storedOk :=
  { h with regsCanonical := RegFile.wf_write i v h.regsCanonical, regsBelow := Cells.below_write v hi h.regsBelow }

theorem State.storedOk_setCell {s : State} (h : s.storedOk) {a : Nat} (ha : a < s.cfg.memSize) (v : Value) :
    (s.setCell a v).storedOk :=
  { h with memCanonical := Memory.wf_write a v h.memCanonical, memBelow := Cells.below_write v ha h.memBelow }

theorem State.storedOk_setCell_toNat {s : State} (h : s.storedOk) {a : Int} (ha : 0 ≤ a)
    (ha' : a < (s.cfg.memSize : Int)) (v : Value) : (s.setCell a.toNat v).storedOk :=
  State.storedOk_setCell h (by omega) v

theorem State.storedOk_emit {s : State} (h : s.storedOk) {v : Value} (hv : v ≠ .empty) : (s.emit v).storedOk :=
  { h with outputFilled := by simpa [or_imp, forall_and, hv] using h.outputFilled }

theorem RegEffect.storedOk {s t : State} {r : Nat} (h : RegEffect s t r) (hs : s.storedOk) : t.storedOk := by
  obtain ⟨hr, v, rfl⟩ := h
  exact State.storedOk_setReg hs hr v

theorem MoveEffect.storedOk {s t : State} {d : Descriptor} (h : MoveEffect s t d) (hs : s.storedOk) : t.storedOk := by
  obtain ⟨-, hreg⟩ | ⟨-, a, v, -, ha, ha', rfl⟩ := h
  · exact RegEffect.storedOk hreg hs
  · exact State.storedOk_setCell_toNat hs ha ha' v

theorem PushEffect.storedOk {s t : State} (h : PushEffect s t) (hs : s.storedOk) : t.storedOk := by
  obtain ⟨sp, v, w, -, hsp, hsp', rfl⟩ := h
  exact State.storedOk_setReg (State.storedOk_setCell_toNat hs hsp hsp' v) (spIndex_lt _) w

theorem SourceHolds.ne_empty {s : State} {d : Descriptor} {v : Value} (h : SourceHolds s d v) : v ≠ .empty := by
  obtain ⟨-, -, -, hv⟩ | ⟨-, a, -, -, -, -, hv⟩ := h <;> exact hv

theorem Effect.storedOk {i : Instr} {s t : State} (h : Effect i s t) (hs : s.storedOk) : t.storedOk := by
  cases i with
  | add a b c | mul a b c | increment a | decrement a | load a n => exact RegEffect.storedOk h hs
  | moveReg d c | moveInt d n | moveText d n => exact MoveEffect.storedOk h hs
  | push a => exact PushEffect.storedOk h hs
  | pop a =>
    obtain ⟨ha, v, w, rfl⟩ := h
    exact State.storedOk_setReg (State.storedOk_setReg hs (spIndex_lt _) v) ha w
  | call addr =>
    obtain ⟨u, hpush, rfl⟩ := h
    have hu : u.storedOk := PushEffect.storedOk hpush hs
    exact hu
  | ret =>
    obtain ⟨sp, r, v, -, -, rfl⟩ := h
    exact State.storedOk_setReg hs (spIndex_lt _) v
  | jumpIfTrue addr =>
    obtain rfl := h
    split <;> exact hs
  | testEquals a b =>
    obtain ⟨f, rfl⟩ := h
    exact hs
  | echo a =>
    obtain ⟨v, hsrc, rfl⟩ := h
    exact State.storedOk_emit hs (SourceHolds.ne_empty hsrc)
  | jump addr | iinput addr | halt =>
    obtain rfl := h
    exact hs

/-! ## What STATE says -/

/-- The fault record has its reset values (R32). -/
abbrev State.recordClear (s : State) : Prop := s.faultCause = .none ∧ s.faultPc = 0 ∧ s.faultInfo = 0

/-- The invariant outside FAULTED. -/
theorem MachineInv.of_safe {t : State} (stored : t.storedOk) (safe : t.safe) (clear : t.recordClear)
    (load : t.fsm = .load → t.pc = 0 ∧ t.curPc = 0 ∧ t.inAddr = 0 ∧ t.output = [])
    (wait : t.fsm = .waitIn → t.pcFollows) (halt : t.fsm = .halted → t.pcFollows) : MachineInv t :=
  { stored with
    recordClear := fun _ => clear
    recordSet := fun faulted => absurd faulted safe
    fetchFaultPc := fun faulted => absurd faulted safe
    laterFaultPc := fun faulted => absurd faulted safe
    loadFresh := load
    waitPc := wait
    haltPc := halt }

theorem MachineInv.of_run {t : State} (stored : t.storedOk) (clear : t.recordClear) (run : t.fsm = .run) :
    MachineInv t :=
  .of_safe stored (by simp [run]) clear (by simp [run]) (by simp [run]) (by simp [run])

theorem MachineInv.of_load {t : State} (stored : t.storedOk) (clear : t.recordClear) (load : t.fsm = .load)
    (fresh : t.pc = 0 ∧ t.curPc = 0 ∧ t.inAddr = 0 ∧ t.output = []) : MachineInv t :=
  .of_safe stored (by simp [load]) clear (fun _ => fresh) (by simp [load]) (by simp [load])

/-- The invariant after an entry into FAULTED: pc and info are asked for by the kind of the fault. -/
theorem MachineInv.of_enterFaulted {s : State} {e : Raise} (stored : s.storedOk) (cause : e.cause ≠ .none)
    (fetch : (enterFaulted s e).fetchFault → s.pc = s.curPc ∧ (BitVec.ofInt 33 e.info).toInt = s.pc.toInt)
    (later : ¬ (enterFaulted s e).fetchFault → s.pcFollows) : MachineInv (enterFaulted s e) :=
  { stored with
    recordClear := fun safe => absurd rfl safe
    recordSet := fun _ => ⟨cause, rfl⟩
    fetchFaultPc := fun _ => fetch
    laterFaultPc := fun _ => later
    loadFresh := fun load => nomatch load
    waitPc := fun wait => nomatch wait
    haltPc := fun halt => nomatch halt }

/-- A fault of the fetch keeps the invariant: pc is still the fetch address, and FAULT_INFO is wide enough for it. -/
theorem MachineInv.enterFaulted_fetch {s : State} {e : Raise} (stored : s.storedOk) (latched : s.pc = s.curPc)
    (info : e.info = s.pc.toInt) (cause : e.cause = .fetchRange ∨ e.cause = .fetchNotInstr) :
    MachineInv (enterFaulted s e) := by
  have bounds := word_toInt_bounds s.pc
  have exact_info : (BitVec.ofInt 33 e.info).toInt = s.pc.toInt := by
    rw [info]
    exact infoWord_toInt (by omega) (by omega)
  refine .of_enterFaulted stored ?_ (fun _ => ⟨latched, exact_info⟩) fun notFetch => absurd cause notFetch
  rcases cause with cause | cause <;> simp [cause]

/-- A fault after the fetch keeps the invariant where pc was advanced. -/
theorem MachineInv.enterFaulted_later {s : State} {e : Raise} (stored : s.storedOk) (follows : s.pcFollows)
    (cause : e.cause.afterFetch = true) : MachineInv (enterFaulted s e) := by
  obtain ⟨notNone, notFetch⟩ := FaultCause.afterFetch_iff.mp cause
  exact .of_enterFaulted stored notNone (fun fetch => absurd fetch notFetch) fun _ => follows

/-! ## Steps -/

/-- After a fetch in memory pc is the fetch address plus 1: MEM_SIZE is small enough for the sum not to wrap (R8, R27). -/
theorem pcFollows_advancePc {s : State} (inside : 0 ≤ s.pc.toInt ∧ s.pc.toInt < (s.cfg.memSize : Int)) :
    (advancePc (latchPc s)).pcFollows := by
  obtain ⟨-, memSize_le, -⟩ := configOk_iff.mp s.cfg.ok
  have sum_eq : s.pc + 1 = wrapW (s.pc.toInt + 1) := by simp [wrapW, BitVec.ofInt_add]
  refine ⟨?_, inside.1, inside.2⟩
  change (s.pc + 1).toInt = s.pc.toInt + 1
  rw [sum_eq]
  exact wrapW_toInt (by omega) (by omega)

/-- An instruction keeps the invariant, started where a fetch leaves the machine. -/
theorem machineInv_exec {i : Instr} {s t : State} (stored : s.storedOk) (clear : s.recordClear) (run : s.fsm = .run)
    (follows : s.pcFollows) (h : exec i s = .next t) : MachineInv t := by
  rcases exec_cases h with effect | ⟨e, raised, rfl⟩
  · have stored' := effect.storedOk stored
    obtain ⟨regs, mem, p, rfl⟩ | ⟨_, _, f, -, rfl⟩ | ⟨_, v, -, -, rfl⟩ | ⟨addr, -, rfl⟩ | ⟨-, rfl⟩ := effect.form
    · exact .of_run stored' clear run
    · exact .of_run stored' clear run
    · exact .of_run stored' clear run
    · exact .of_safe stored' (by simp) clear (by simp) (fun _ => follows) (fun _ => follows)
    · exact .of_safe stored' (by simp) clear (by simp) (fun _ => follows) (fun _ => follows)
  · exact .enterFaulted_later stored follows (instrOp_raises i s e raised)

theorem machineInv_runInstr {s t : State} (inv : MachineInv s) (run : s.fsm = .run) (h : runInstr s = .next t) :
    MachineInv t := by
  obtain ⟨-, rfl⟩ | ⟨-, -, rfl⟩ | ⟨w, e, ⟨low, high, -⟩, -, rfl⟩ | ⟨w, i, ⟨low, high, -⟩, -, hexec⟩ :=
    runInstr_cases h
  · exact .enterFaulted_fetch (s := latchPc s) inv.storedOk rfl rfl (.inl rfl)
  · exact .enterFaulted_fetch (s := latchPc s) inv.storedOk rfl rfl (.inr rfl)
  · exact .enterFaulted_later (s := advancePc (latchPc s)) inv.storedOk (pcFollows_advancePc ⟨low, high⟩) rfl
  · have clear : s.recordClear := inv.recordClear (by simp [run])
    exact machineInv_exec (s := advancePc (latchPc s)) inv.storedOk clear run (pcFollows_advancePc ⟨low, high⟩) hexec

theorem machineInv_iinputComplete {s : State} (inv : MachineInv s) (wait : s.fsm = .waitIn) (r : InResponse) :
    MachineInv (iinputComplete r s) := by
  have stored := inv.storedOk
  have clear : s.recordClear := inv.recordClear (by simp [wait])
  have follows : s.pcFollows := inv.waitPc wait
  obtain ⟨n, -, inside, h⟩ | ⟨n, -, -, h⟩ | ⟨-, h⟩ | ⟨-, h⟩ := iinputComplete_cases r s <;> rw [h]
  · obtain ⟨low, high⟩ := not_or.mp inside
    exact .of_run (State.storedOk_setCell_toNat stored (by omega) (by omega) (.int n)) clear rfl
  · exact .enterFaulted_later stored follows rfl
  · exact .of_run stored clear rfl
  · exact .enterFaulted_later stored follows rfl

/-- Every event the core accepts keeps the invariant. -/
theorem machineInv_hostAct {e : HostEvent} {s t : State} (inv : MachineInv s) (h : hostAct e s = some t) :
    MachineInv t := by
  have stored := inv.storedOk
  have clear (load : s.fsm = .load) : s.recordClear := inv.recordClear (by simp [load])
  obtain rfl | ⟨load, rfl⟩ | ⟨load, a, v, ha, rfl⟩ | ⟨load, i, v, hi, rfl⟩ | ⟨load, b, rfl⟩ | ⟨wait, r, rfl⟩ :=
    hostAct_cases h
  · exact .of_load (State.storedOk_resetCore s) ⟨rfl, rfl, rfl⟩ rfl ⟨rfl, rfl, rfl, rfl⟩
  · exact .of_run stored (clear load) rfl
  · exact .of_load (State.storedOk_setCell stored ha v) (clear load) load (inv.loadFresh load)
  · exact .of_load (State.storedOk_setReg stored hi v) (clear load) load (inv.loadFresh load)
  · exact .of_load stored (clear load) load (inv.loadFresh load)
  · exact machineInv_iinputComplete inv wait r

/-- The invariant does not speak of the host's coming events. -/
theorem MachineInv.eventTaken {s : State} (inv : MachineInv s) : MachineInv s.eventTaken := { inv with }

/-- Settles O56, by what a step can be: an accepted event, an instruction in RUN, or nothing but the event taken. -/
theorem everyStepKeepsTheMachineInvariant : Obligations.EveryStepKeepsTheMachineInvariant := by
  intro s t inv h
  obtain hact | ⟨run, hrun⟩ | ⟨-, rfl⟩ := step_cases h
  · exact machineInv_hostAct inv.eventTaken hact
  · exact machineInv_runInstr inv.eventTaken run hrun
  · exact inv.eventTaken

end Sys2Proof.Machine
end

section
/-! PROOFS. The memory: a request and the requests after it (20_memory.md R56), the one cell an instruction stores to and the
cells it leaves (R54), and the fetch of a cell that was stored to (R65, 40_execution_unit.md R104). -/

namespace Sys2Proof.Machine

/-! ## Requests -/

theorem not_outOfMem {s : State} {a : Int} : ¬ OutOfMem s a ↔ 0 ≤ a ∧ a < (s.cfg.memSize : Int) := by
  rw [OutOfMem]
  omega

theorem State.cell_setCell_other {s : State} {a : Int} {b : Nat} (ha : 0 ≤ a) (hb : (b : Int) ≠ a) (v : Value) :
    (s.setCell a.toNat v).cell b = s.cell b := by
  have other : b ≠ a.toNat := by omega
  simp [State.cell_setCell, other]

/-- A read request after a cell in memory was set: that cell's new value, and at any other address, in memory or not, the
same answer as before. -/
theorem portRead_setCell {s : State} {a : Int} (inside : ¬ OutOfMem s a) (v : Value) (b : Int) :
    (s.setCell a.toNat v).portRead b = if b = a then some v else s.portRead b := by
  split
  · next same =>
    subst same
    exact portRead_some.mpr ⟨not_outOfMem.mp inside, State.cell_setCell_same s b.toNat v⟩
  · next other =>
    simp only [State.portRead, State.setCell_inMem, State.inMem_iff]
    split
    · next hb =>
      obtain ⟨ha, -⟩ := not_outOfMem.mp inside
      exact congrArg some (State.cell_setCell_other ha (by omega) v)
    · rfl

/-- Settles O46: in memory the request sets one cell, outside both requests are refused. -/
theorem memoryPortReadsWhatWasWritten : Obligations.MemoryPortReadsWhatWasWritten := by
  intro s a v
  constructor
  · intro inside
    exact ⟨s.setCell a.toNat v, portWrite_some.mpr ⟨not_outOfMem.mp inside, rfl⟩, rfl, Memory.wf_write a.toNat v,
      portRead_setCell inside v⟩
  · intro outside
    exact ⟨portRead_none.mpr outside, portWrite_none.mpr outside⟩

/-! ## The cells an instruction leaves -/

theorem addressOf_eq_some {α : Type} {f : α → Int} {r : Checked α} {n : Int} :
    addressOf f r = some n ↔ ∃ a, r = .ok a ∧ f a = n := by
  cases r <;> simp [addressOf]

theorem RegEffect.cell {s t : State} {r : Nat} (h : RegEffect s t r) (b : Nat) : t.cell b = s.cell b := by
  obtain ⟨-, v, rfl⟩ := h
  rfl

/-- A Move leaves every cell that its destination does not point to. -/
theorem MoveEffect.cell_other {s t : State} {d : Descriptor} {b : Nat} (h : MoveEffect s t d)
    (hb : (if d.ind then addressOf id (effectiveAddress s d) else none) ≠ some (b : Int)) : t.cell b = s.cell b := by
  obtain ⟨-, hreg⟩ | ⟨hd, a, v, points, ha, -, rfl⟩ := h
  · exact RegEffect.cell hreg b
  · rw [if_pos hd] at hb
    refine State.cell_setCell_other ha (fun hba => hb ?_) v
    exact addressOf_eq_some.mpr ⟨a, effectiveAddress_ok.mpr points, hba.symm⟩

/-- A push leaves every cell that is not at the stack address. -/
theorem PushEffect.cell_other {s t : State} {b : Nat} (h : PushEffect s t)
    (hb : addressOf BitVec.toInt (stackAddress s) ≠ some (b : Int)) : t.cell b = s.cell b := by
  obtain ⟨sp, v, w, holds, hsp, -, rfl⟩ := h
  rw [State.setReg_cell]
  refine State.cell_setCell_other hsp (fun hbsp => hb ?_) v
  exact addressOf_eq_some.mpr ⟨sp, stackAddress_ok.mpr holds, hbsp.symm⟩

/-- A completed instruction leaves every cell that is not at its store address (the table of R54). -/
theorem Effect.cell_unstored {i : Instr} {s t : State} {b : Nat} (h : Effect i s t)
    (hb : storeAddress i s ≠ some (b : Int)) : t.cell b = s.cell b := by
  cases i with
  | add a _ _ | mul a _ _ | increment a | decrement a | load a n => exact RegEffect.cell h b
  | moveReg d c | moveInt d n | moveText d n => exact MoveEffect.cell_other h hb
  | push a => exact PushEffect.cell_other h hb
  | pop a =>
    obtain ⟨-, v, w, rfl⟩ := h
    rfl
  | call addr =>
    obtain ⟨u, hpush, rfl⟩ := h
    rw [State.setPc_cell]
    exact PushEffect.cell_other hpush hb
  | ret =>
    obtain ⟨sp, r, v, -, -, rfl⟩ := h
    rfl
  | jump addr | iinput addr | halt =>
    obtain rfl := h
    rfl
  | jumpIfTrue addr =>
    obtain rfl := h
    split <;> rfl
  | testEquals =>
    obtain ⟨f, rfl⟩ := h
    rfl
  | echo a =>
    obtain ⟨v, -, rfl⟩ := h
    rfl

theorem exec_cell_unstored {i : Instr} {s t : State} {b : Nat} (h : exec i s = .next t)
    (hb : storeAddress i s ≠ some (b : Int)) : t.cell b = s.cell b := by
  rcases exec_cases h with effect | ⟨e, -, rfl⟩
  · exact effect.cell_unstored hb
  · rfl

/-- Settles O48, by the instruction's effect; a fault stores to no cell. -/
theorem onlyTheStoredCellChanges : Obligations.OnlyTheStoredCellChanges := by
  intro i s t h
  constructor
  · intro storesNothing b
    exact exec_cell_unstored h (by simp [storesNothing])
  · intro a storesAt b other
    exact exec_cell_unstored h (by simpa [storesAt] using other.symm)

/-! ## The cell an instruction stores to -/

/-- A Move with its source at hand is the store of that value (R141, R142). -/
theorem MovesValue.instrOp_eq {i : Instr} {s : State} {dst : Descriptor} {v : Value} (h : MovesValue i s dst v) :
    instrOp i s = storeOperand s dst v := by
  obtain ⟨src, rfl, source⟩ | ⟨n, rfl, rfl⟩ | ⟨t, rfl, rfl⟩ := h
  · simp only [instrOp, moveRegOp, resolve_ok.mpr source]
    rfl
  · rfl
  · rfl

/-- A push with the stack address at hand and in memory stores the value there. -/
theorem pushVal_stores {s : State} {v : Value} {sp : Word} (holds : HoldsInt s s.cfg.spIndex sp)
    (inside : ¬ OutOfMem s sp.toInt) : ∃ t, pushVal s v = .ok t ∧ t.cell sp.toInt.toNat = v :=
  ⟨_, pushVal_ok.mpr ⟨sp, holds, not_outOfMem.mp inside, rfl⟩, State.cell_setCell_same s _ v⟩

/-- An instruction that is to store `v` at an address in memory completes, with `v` in that cell. -/
theorem Stores.instrOp_ok {i : Instr} {s : State} {v : Value} {a : Int} (h : Stores i s v a)
    (inside : ¬ OutOfMem s a) : ∃ t, instrOp i s = .ok t ∧ t.cell a.toNat = v := by
  obtain ⟨dst, moves, hd, points⟩ | ⟨x, sp, rfl, source, holds, rfl⟩ | ⟨addr, sp, rfl, rfl, holds, rfl⟩ := h
  · rw [moves.instrOp_eq]
    exact ⟨_, storeOperand_ok.mpr (.inr ⟨hd, a, points, not_outOfMem.mp inside, rfl⟩), State.cell_setCell_same s _ v⟩
  · obtain ⟨t, pushed, cell⟩ := pushVal_stores (v := v) holds inside
    exact ⟨t, Checked.bind_ok.mpr ⟨v, regRead_ok.mpr source, pushed⟩, cell⟩
  · obtain ⟨t, pushed, cell⟩ := pushVal_stores (v := .int s.pc) holds inside
    exact ⟨t.setPc addr, Checked.bind_ok.mpr ⟨t, pushed, rfl⟩, cell⟩

theorem Stores.cell {i : Instr} {s t : State} {v : Value} {a : Int} (h : Stores i s v a) (inside : ¬ OutOfMem s a)
    (hexec : exec i s = .next t) : t.cell a.toNat = v := by
  obtain ⟨u, completes, cell⟩ := h.instrOp_ok inside
  rw [exec_eq_commit, commit_ok completes] at hexec
  cases hexec
  exact cell

/-- A response in WAIT_IN is the step: the completion of the waiting Iinput (R182, R183). -/
theorem step_respond {s : State} {r : InResponse} (wait : s.fsm = .waitIn) (event : s.nextEvent = .respond r) :
    step s = .next (iinputComplete r s.eventTaken) := by
  simp [step_by_event, event, hostAct, wait]

theorem iinputComplete_int_cell {s : State} (n : Word) (inside : ¬ OutOfMem s s.inAddr.toInt) :
    (iinputComplete (.int n) s).cell s.inAddr.toInt.toNat = .int n := by
  have completes := inputOp_int_ok (n := n).mpr ⟨not_outOfMem.mp inside, rfl⟩
  simp [iinputComplete, completes]

/-! ## The fetch of a stored cell -/

theorem outOfMem_congr {s t : State} {a : Int} (cfg : t.cfg = s.cfg) : OutOfMem t a ↔ OutOfMem s a := by
  rw [OutOfMem, cfg]

/-- A fetch reads nothing but the parameters, the memory and pc: in any state that shares memory and parameters with `t` it
sees what the cell at its pc holds in `t`. -/
theorem fetchSees_of_mem_eq {t u : State} {v : Value} {a : Int} (cfg : u.cfg = t.cfg) (mem : u.mem = t.mem)
    (pc : u.pc.toInt = a) (inside : ¬ OutOfMem t a) (cell : t.cell a.toNat = v) : FetchSees u v := by
  subst pc
  refine fetchSees_of_cell (mt (outOfMem_congr cfg).mp inside) ?_
  rwa [State.cell, mem]

/-- Settles O37: the store puts the value into the cell, and the fetch sees what the cell holds. -/
theorem storedCellsAreFetched : Obligations.StoredCellsAreFetched := by
  constructor
  · intro i s t v a stores inside hexec u cfg mem pc
    exact fetchSees_of_mem_eq cfg mem pc (mt (outOfMem_congr (exec_cfg hexec)).mp inside) (stores.cell inside hexec)
  · intro s t n wait event inside hstep u cfg mem pc
    have hcell := iinputComplete_int_cell (s := s.eventTaken) n inside
    have hcfg := iinputComplete_cfg (.int n) s.eventTaken
    rw [step_respond wait event] at hstep
    cases hstep
    exact fetchSees_of_mem_eq cfg mem (congrArg BitVec.toInt pc) (mt (outOfMem_congr hcfg).mp inside) hcell

end Sys2Proof.Machine
end

section
/-! PROOFS. Register descriptors (30_encoding.md R73 to R78): the number the encoder gives, the three fields the decoder
reads as numbers, and the two round trips. -/

namespace Sys2Proof

/-! ## The encoder's number -/

/-- Two numbers whose bits do not meet: their `or` is their sum. -/
theorem or_mul_two_pow {x k : Nat} (h : x < 2 ^ k) (y : Nat) : x ||| y * 2 ^ k = x + y * 2 ^ k := by
  rw [Nat.or_comm, ← Nat.shiftLeft_eq, ← Nat.shiftLeft_add_eq_or_of_lt h, Nat.add_comm]

/-- R77: a descriptor is the sum of its three fields in their places. -/
theorem encDescriptor_toNat {i : Nat} (hi : i < 256) (f : Bool) (o : Int) :
    (encDescriptor i f o).toNat = i + (o % 65536).toNat * 256 + (if f then 16777216 else 0) := by
  have offBound : (o % 65536).toNat < 65536 := by omega
  unfold encDescriptor
  generalize (o % 65536).toNat = n at offBound ⊢
  have low : (BitVec.ofNat 32 i ||| BitVec.ofNat 32 n <<< 8).toNat = i + n * 256 := by
    rw [BitVec.toNat_or, BitVec.toNat_shiftLeft, BitVec.toNat_ofNat, BitVec.toNat_ofNat, Nat.shiftLeft_eq,
      Nat.mod_eq_of_lt (by omega : i < 2 ^ 32), Nat.mod_eq_of_lt (by omega : n < 2 ^ 32),
      Nat.mod_eq_of_lt (by omega : n * 2 ^ 8 < 2 ^ 32)]
    exact or_mul_two_pow hi n
  rw [BitVec.toNat_or, low]
  cases f with
  | false => exact Nat.or_zero _
  | true => exact or_mul_two_pow (by omega : i + n * 256 < 2 ^ 24) 1

/-! ## The decoder's fields -/

/-- IDX is bits 7 to 0 (R74). -/
theorem descIdx_toNat (d : BitVec 32) : (descIdx d).toNat = d.toNat % 256 := by
  simp [descIdx]

/-- IND is bit 24 (R74). -/
theorem descInd_eq_true {d : BitVec 32} : descInd d = true ↔ d.toNat / 16777216 % 2 = 1 := by
  rw [descInd, BitVec.getLsbD, Nat.testBit_eq_decide_div_mod_eq, decide_eq_true_iff]

/-- The bits of OFF, 23 to 8 (R74). -/
theorem descOff_toNat (d : BitVec 32) : (descOff d).toNat = d.toNat / 256 % 65536 := extract_toNat d 8 16

/-- OFF is read in two's complement (R74). -/
theorem descOff_toInt (d : BitVec 32) :
    (descOff d).toInt = if d.toNat / 256 % 65536 < 32768 then ((d.toNat / 256 % 65536 : Nat) : Int)
      else ((d.toNat / 256 % 65536 : Nat) : Int) - 65536 := by
  rw [BitVec.toInt_eq_toNat_cond, descOff_toNat]
  split <;> split <;> omega

/-- Two descriptors with the same low 25 bits decode alike: bits 31 to 25 are ignored (R73). -/
theorem decodeDescriptor_congr {d e : BitVec 32} (h : d.toNat % 33554432 = e.toNat % 33554432) :
    decodeDescriptor d = decodeDescriptor e := by
  have idx : descIdx d = descIdx e := BitVec.eq_of_toNat_eq (by rw [descIdx_toNat, descIdx_toNat]; omega)
  have ind : descInd d = descInd e := Bool.eq_iff_iff.mpr (by rw [descInd_eq_true, descInd_eq_true]; omega)
  have off : descOff d = descOff e := BitVec.eq_of_toNat_eq (by rw [descOff_toNat, descOff_toNat]; omega)
  rw [decodeDescriptor, idx, ind, off, decodeDescriptor]

/-- Clearing the ignored bits leaves the low 25. -/
theorem clearIgnored_toNat (d : BitVec 32) : (d &&& 0x01FFFFFF#32).toNat = d.toNat % 33554432 := by
  rw [BitVec.toNat_and]
  exact Nat.and_two_pow_sub_one_eq_mod d.toNat 25

/-- Settles O2, a field at a time. -/
theorem descriptorDecoderReadsItsThreeFields : Obligations.DescriptorDecoderReadsItsThreeFields := by
  intro d
  refine ⟨descIdx_toNat d, descInd_eq_true, descOff_toInt d, decodeDescriptor_congr ?_⟩
  rw [clearIgnored_toNat, Nat.mod_mod]

/-! ## The round trips -/

theorem descIdx_encDescriptor {i : Nat} (hi : i < 256) (f : Bool) (o : Int) :
    (descIdx (encDescriptor i f o)).toNat = i := by
  rw [descIdx_toNat, encDescriptor_toNat hi]
  cases f <;> simp <;> omega

theorem descInd_encDescriptor {i : Nat} (hi : i < 256) (f : Bool) (o : Int) :
    descInd (encDescriptor i f o) = f := by
  rw [Bool.eq_iff_iff, descInd_eq_true, encDescriptor_toNat hi]
  cases f <;> simp <;> omega

theorem descOff_encDescriptor_toNat {i : Nat} (hi : i < 256) (f : Bool) (o : Int) :
    (descOff (encDescriptor i f o)).toNat = (o % 65536).toNat := by
  rw [descOff_toNat, encDescriptor_toNat hi]
  cases f <;> simp <;> omega

/-- Settles O1, from the encoder's number: each field is a digit group of it. -/
theorem descriptorTriplesRoundTrip : Obligations.DescriptorTriplesRoundTrip := by
  intro i f o hi lo hi'
  have idxBound : i < 256 := by omega
  refine ⟨encDescriptor_toNat idxBound f o, descIdx_encDescriptor idxBound f o, descInd_encDescriptor idxBound f o, ?_⟩
  rw [BitVec.toInt_eq_toNat_cond, descOff_encDescriptor_toNat idxBound]
  split <;> omega

/-- A two's complement number of 16 bits, reduced modulo 2^16, is its bits. -/
theorem offset_toInt_emod (x : BitVec 16) : (x.toInt % 65536).toNat = x.toNat := by
  rw [BitVec.toInt_eq_toNat_cond]
  split <;> omega

/-- Decoding the field of a descriptor gives the descriptor. -/
@[simp] theorem decodeDescriptor_field (d : Descriptor) : decodeDescriptor d.field = d := by
  have idx : descIdx d.field = d.idx := BitVec.eq_of_toNat_eq (descIdx_encDescriptor d.idx.isLt d.ind d.off.toInt)
  have ind : descInd d.field = d.ind := descInd_encDescriptor d.idx.isLt d.ind d.off.toInt
  have off : descOff d.field = d.off :=
    BitVec.eq_of_toNat_eq ((descOff_encDescriptor_toNat d.idx.isLt d.ind d.off.toInt).trans (offset_toInt_emod d.off))
  rw [decodeDescriptor, idx, ind, off]

/-- The field of a decoded descriptor is the given one without its ignored bits. -/
theorem field_decodeDescriptor (d : BitVec 32) : (decodeDescriptor d).field = d &&& 0x01FFFFFF#32 := by
  apply BitVec.eq_of_toNat_eq
  rw [clearIgnored_toNat, Descriptor.field, encDescriptor_toNat (decodeDescriptor d).idx.isLt, offset_toInt_emod]
  simp only [decodeDescriptor, descIdx_toNat, descOff_toNat, descInd_eq_true]
  split <;> omega

end Sys2Proof
end

section
/-! PROOFS. The instruction word (30_encoding.md R79 to R84): what a decoded word is, said once by the five checks, and the
two round trips of the decoder and the encoder. -/

namespace Sys2Proof

open Machine

/-! ## A word and its parts -/

/-- A word is its header and its three fields (R79). -/
theorem packWord_fields (w : InstrWord) :
    packWord (rsvField w ++ (kField w ++ opField w)) (fieldA w) (fieldB w) (fieldC w) = w := by
  apply BitVec.eq_of_toNat_eq
  simp only [packWord_toNat, append_toNat, rsvField, kField, opField, fieldA, fieldB, fieldC, extract_toNat]
  omega

/-- A word whose opcode, source kind and reserved bits are known. -/
theorem eq_packWord_header {w : InstrWord} {o : Opcode} {k : BitVec 2} (op : opField w = o.code) (rsv : rsvField w = 0)
    (source : kField w = k) : w = packWord (header o k) (fieldA w) (fieldB w) (fieldC w) := by
  conv_lhs => rw [← packWord_fields w, op, rsv, source]
  rfl

/-- A mask acts on the header and on each field by itself. -/
theorem packWord_and (h a b c h' a' b' c' : BitVec 32) :
    packWord h a b c &&& packWord h' a' b' c' = packWord (h &&& h') (a &&& a') (b &&& b') (c &&& c') := by
  have regrouped : (c ++ (b ++ (a ++ h)) : BitVec (32 + (32 + (32 + 32)))) &&& (c' ++ (b' ++ (a' ++ h'))) =
      (c &&& c') ++ ((b &&& b') ++ ((a &&& a') ++ (h &&& h'))) := by
    rw [BitVec.and_append, BitVec.and_append, BitVec.and_append]
  exact regrouped

/-- Two words agree where their headers and fields do. -/
theorem packWord_inj {h a b c h' a' b' c' : BitVec 32} :
    packWord h a b c = packWord h' a' b' c' ↔ h = h' ∧ a = a' ∧ b = b' ∧ c = c' := by
  constructor
  · intro same
    have parts := congrArg BitVec.toNat same
    rw [packWord_toNat, packWord_toNat] at parts
    refine ⟨?_, ?_, ?_, ?_⟩ <;> apply BitVec.eq_of_toNat_eq <;> omega
  · rintro ⟨rfl, rfl, rfl, rfl⟩
    rfl

/-! ## The parts of an instruction's word -/

/-- The source kind in an instruction's word: which of its three forms a Move is, and 00 for the rest (R82, R84). -/
def Instr.sourceKind : Instr → BitVec 2
  | .moveInt _ _ => 1#2
  | .moveText _ _ => 2#2
  | _ => 0#2

/-- The fields A, B and C of an instruction's word (R80). -/
def Instr.fields : Instr → BitVec 32 × BitVec 32 × BitVec 32
  | .add a b c => (a.field, b.field, c.field)
  | .mul a b c => (a.field, b.field, c.field)
  | .increment a => (a.field, 0, 0)
  | .decrement a => (a.field, 0, 0)
  | .moveReg dst src => (dst.field, src.field, 0)
  | .moveInt dst n => (dst.field, n, 0)
  | .moveText dst t => (dst.field, t, 0)
  | .load a addr => (a.field, addr, 0)
  | .push a => (a.field, 0, 0)
  | .pop a => (a.field, 0, 0)
  | .call addr => (addr, 0, 0)
  | .ret => (0, 0, 0)
  | .jump addr => (addr, 0, 0)
  | .jumpIfTrue addr => (addr, 0, 0)
  | .testEquals a b => (a.field, b.field, 0)
  | .echo a => (a.field, 0, 0)
  | .iinput addr => (addr, 0, 0)
  | .halt => (0, 0, 0)

theorem encode_eq_packWord (i : Instr) :
    encode i = packWord (header i.opcode i.sourceKind) i.fields.1 i.fields.2.1 i.fields.2.2 := by
  cases i <;> rfl

/-- The source kinds an opcode takes: 00, and for Move 01 and 10 too (check 3 of R84). -/
abbrev Opcode.TakesSource (o : Opcode) (k : BitVec 2) : Prop := k = 0 ∨ (o = .move ∧ (k = 1 ∨ k = 2))

theorem Instr.takesSource (i : Instr) : i.opcode.TakesSource i.sourceKind := by
  cases i with
  | moveInt => exact .inr ⟨rfl, .inl rfl⟩
  | moveText => exact .inr ⟨rfl, .inr rfl⟩
  | _ => exact .inl rfl

/-- Three fields are legal for the kinds of an opcode (checks 4 and 5 of R84). -/
def Opcode.FieldsLegal (o : Opcode) (a b c : BitVec 32) : Prop :=
  FieldLegal o.kinds.1 a ∧ FieldLegal o.kinds.2.1 b ∧ FieldLegal o.kinds.2.2 c

/-- IND of a descriptor's field. -/
@[simp] theorem Descriptor.field_ind (d : Descriptor) : d.field[24] = d.ind :=
  congrArg Descriptor.ind (decodeDescriptor_field d)

/-- A well-formed instruction is one whose fields are legal for its opcode. -/
theorem Instr.wf_iff (i : Instr) : i.wf = true ↔ i.opcode.FieldsLegal i.fields.1 i.fields.2.1 i.fields.2.2 := by
  cases i <;>
    simp [Instr.wf, Opcode.FieldsLegal, FieldLegal, Instr.opcode, Opcode.kinds, Instr.fields, Descriptor.direct, and_assoc]

/-! ## The five checks -/

/-- The five checks of R84 on a word, for the opcode its OP names. -/
def WordChecks (o : Opcode) (w : InstrWord) : Prop :=
  opField w = o.code ∧ rsvField w = 0 ∧ o.TakesSource (kField w) ∧ o.FieldsLegal (fieldA w) (fieldB w) (fieldC w)

theorem kLegal_iff {o : Opcode} {w : InstrWord} : kLegal o w = true ↔ o.TakesSource (kField w) := by
  simp [kLegal, Opcode.TakesSource]

/-- Checks 4 and 5 on one field. -/
theorem fieldLegal_iff {k : OperandKind} {f : BitVec 32} :
    FieldLegal k f ↔ fieldDirectOk k f = true ∧ fieldUnusedZero k f = true := by
  cases k <;> simp [FieldLegal, fieldDirectOk, fieldUnusedZero, descInd]

theorem fieldsLegal_iff {o : Opcode} {w : InstrWord} :
    o.FieldsLegal (fieldA w) (fieldB w) (fieldC w) ↔ directOk o w = true ∧ unusedZero o w = true := by
  simp only [Opcode.FieldsLegal, fieldLegal_iff, directOk, unusedZero, Bool.and_eq_true]
  tauto

/-- The model's checks, one by one, are those of R84. -/
theorem wordChecks_iff {o : Opcode} {w : InstrWord} :
    WordChecks o w ↔ Opcode.ofByte (opField w) = some o ∧ rsvZero w = true ∧ kLegal o w = true ∧
      directOk o w = true ∧ unusedZero o w = true := by
  have op : opField w = o.code ↔ Opcode.ofByte (opField w) = some o :=
    ⟨fun h => by rw [h, Opcode.ofByte_code], Opcode.code_of_ofByte⟩
  rw [WordChecks, op, fieldsLegal_iff, kLegal_iff, rsvZero, beq_iff_eq]
  rfl

/-- All that a decoded word can be: one that passes the checks for an opcode, and is assembled by that opcode. -/
theorem decode_eq_ok {w : InstrWord} {i : Instr} :
    decode w = .ok i ↔ ∃ o, WordChecks o w ∧ assemble o w = .ok i := by
  constructor
  · intro h
    cases known : Opcode.ofByte (opField w) with
    | none => simp [decode, known] at h
    | some o =>
      rw [decode_of_opcode known] at h
      split_ifs at h with rsv source direct unused
      simp only [Bool.not_eq_false] at rsv source direct unused
      exact ⟨o, wordChecks_iff.mpr ⟨known, rsv, source, direct, unused⟩, h⟩
  · rintro ⟨o, checks, h⟩
    obtain ⟨known, rsv, source, direct, unused⟩ := wordChecks_iff.mp checks
    simp [decode_of_opcode known, rsv, source, direct, unused, h]

/-- A word packed from a header and fields passes the checks where its source kind and fields do. -/
theorem wordChecks_packWord {o : Opcode} {k : BitVec 2} {a b c : BitVec 32} :
    WordChecks o (packWord (header o k) a b c) ↔ o.TakesSource k ∧ o.FieldsLegal a b c := by
  simp [WordChecks]

/-! ## Decoding an encoded instruction -/

theorem wordChecks_encode {i : Instr} (h : i.wf = true) : WordChecks i.opcode (encode i) := by
  rw [encode_eq_packWord, wordChecks_packWord]
  exact ⟨i.takesSource, i.wf_iff.mp h⟩

/-- The operands are read back from the word, each at its field. -/
theorem assemble_encode (i : Instr) : assemble i.opcode (encode i) = .ok i := by
  cases i <;> simp [assemble, Instr.opcode, encode]

/-- Settles O3: the word passes the checks of its opcode, and its operands are read back. -/
theorem decodeInvertsEncode : Obligations.DecodeInvertsEncode := by
  intro i wf
  exact decode_eq_ok.mpr ⟨i.opcode, wordChecks_encode wf, assemble_encode i⟩

/-! ## Encoding a decoded word -/

/-- The bits of a field that decoding depends on: all but 31 to 25 where it is a register descriptor (R73, R81). The source
of a Move counts here as a literal. -/
def OperandKind.readBits : OperandKind → BitVec 32
  | .direct => 0x01FFFFFF#32
  | .register => 0x01FFFFFF#32
  | .literal => BitVec.allOnes 32
  | .moveSource => BitVec.allOnes 32
  | .unused => BitVec.allOnes 32

/-- The kinds of an instruction's fields: those of its opcode, the source of Move being a register in one form (R82). -/
def Instr.kinds : Instr → OperandKind × OperandKind × OperandKind
  | .moveReg _ _ => (.register, .register, .unused)
  | i => i.opcode.kinds

theorem keptBits_eq_packWord (i : Instr) :
    keptBits i = packWord (BitVec.allOnes 32) i.kinds.1.readBits i.kinds.2.1.readBits i.kinds.2.2.readBits := by
  cases i <;> simp only [keptBits, Instr.kinds, Instr.opcode, Opcode.kinds, OperandKind.readBits] <;> decide

/-! ### A field of each kind, as far as it is read -/

@[simp] theorem and_readBits_direct (f : BitVec 32) : f &&& OperandKind.direct.readBits = (decodeDescriptor f).field :=
  (field_decodeDescriptor f).symm

@[simp] theorem and_readBits_register (f : BitVec 32) : f &&& OperandKind.register.readBits = (decodeDescriptor f).field :=
  (field_decodeDescriptor f).symm

@[simp] theorem and_readBits_literal (f : BitVec 32) : f &&& OperandKind.literal.readBits = f := BitVec.and_allOnes

@[simp] theorem and_readBits_moveSource (f : BitVec 32) : f &&& OperandKind.moveSource.readBits = f := BitVec.and_allOnes

@[simp] theorem and_readBits_unused (f : BitVec 32) : f &&& OperandKind.unused.readBits = f := BitVec.and_allOnes

/-- What an assembled instruction is: its opcode and source kind are the word's, and so is each field where it is read. The
fields that no operand reads are 0 by check 5, and K is 00 but for Move by check 3. -/
theorem assemble_eq_ok {o : Opcode} {w : InstrWord} {i : Instr} (checks : WordChecks o w) (h : assemble o w = .ok i) :
    i.opcode = o ∧ i.sourceKind = kField w ∧
      i.fields =
        (fieldA w &&& i.kinds.1.readBits, fieldB w &&& i.kinds.2.1.readBits, fieldC w &&& i.kinds.2.2.readBits) := by
  obtain ⟨-, -, source, ⟨-, unusedA⟩, ⟨-, unusedB⟩, ⟨-, unusedC⟩⟩ := checks
  cases o with
  | move =>
    have zeroC : fieldC w = 0 := unusedC rfl
    obtain source | ⟨-, source | source⟩ := source
    all_goals
      simp only [assemble, source] at h
      cases h
      simp [Instr.opcode, Instr.sourceKind, source, Instr.fields, Instr.kinds, Opcode.kinds, zeroC]
  | _ =>
    obtain source | ⟨⟨⟩, -⟩ := source
    cases h
    simp_all [Instr.opcode, Instr.sourceKind, Instr.fields, Instr.kinds, Opcode.kinds]

/-- Clearing bits of a field keeps it legal. -/
theorem fieldLegal_and {k : OperandKind} {f : BitVec 32} (h : FieldLegal k f) (m : BitVec 32) : FieldLegal k (f &&& m) := by
  obtain ⟨direct, unused⟩ := h
  refine ⟨fun hk => ?_, fun hk => ?_⟩
  · rw [BitVec.getLsbD_and, direct hk, Bool.false_and]
  · rw [unused hk]
    exact BitVec.zero_and

/-- Settles O4: the decoded instruction's word is packed from the header and the fields as far as they are read. -/
theorem encodeGivesBackDecodedWords : Obligations.EncodeGivesBackDecodedWords := by
  intro w i h
  obtain ⟨o, checks, assembled⟩ := decode_eq_ok.mp h
  obtain ⟨rfl, source, fields⟩ := assemble_eq_ok checks assembled
  obtain ⟨op, rsv, -, legalA, legalB, legalC⟩ := checks
  constructor
  · rw [Instr.wf_iff, fields]
    exact ⟨fieldLegal_and legalA _, fieldLegal_and legalB _, fieldLegal_and legalC _⟩
  · rw [encode_eq_packWord, fields, keptBits_eq_packWord]
    conv_rhs => rw [eq_packWord_header op rsv source.symm, packWord_and, BitVec.and_allOnes]

/-! ## Which words decode -/

/-- A source kind that an opcode takes assembles to an instruction. -/
theorem assemble_isOk {o : Opcode} {w : InstrWord} (h : o.TakesSource (kField w)) : ∃ i, assemble o w = .ok i := by
  obtain source | ⟨rfl, source | source⟩ := h
  · cases o <;> simp [assemble, source]
  · simp [assemble, source]
  · simp [assemble, source]

/-- A word decodes iff the five checks pass (R84). -/
theorem decode_isOk_iff {w : InstrWord} : (∃ i, decode w = .ok i) ↔ ∃ o, WordChecks o w := by
  constructor
  · rintro ⟨i, h⟩
    obtain ⟨o, checks, -⟩ := decode_eq_ok.mp h
    exact ⟨o, checks⟩
  · rintro ⟨o, op, rsv, source, legal⟩
    obtain ⟨i, assembled⟩ := assemble_isOk source
    exact ⟨i, decode_eq_ok.mpr ⟨o, ⟨op, rsv, source, legal⟩, assembled⟩⟩

end Sys2Proof
end

section
/-! PROOFS. The words that do not decode fault (30_encoding.md R84, R85; 40_execution_unit.md R106), and the words that do
are those of the opcode table. -/

namespace Sys2Proof.Machine

/-! ## Illegal words -/

/-- In RUN, left to itself, a step is an instruction step (R102). -/
theorem step_of_runsAlone {s : State} (h : s.runsAlone) : step s = runInstr s.eventTaken := by
  obtain ⟨run, noReset⟩ := h
  rw [step_by_event, hostAct_run (s := s.eventTaken) run noReset]
  simp [coreStep, run]

/-- A fetched word that does not decode faults after pc moved on and before any operand is read (R106). -/
theorem runInstr_illegal {s : State} {w : InstrWord} {e : DecodeError} (cell : CellHolds s s.pc.toInt (.instr w))
    (illegal : decode w = .error e) : runInstr s = .next (enterFaulted (advancePc (latchPc s)) ⟨.illegalInstr, 0⟩) := by
  have fetched : fetchWord (latchPc s) = .ok w := fetchWord_ok.mpr cell
  simp only [runInstr, fetched, illegal]

/-- Settles O6: the checks are those of `WordChecks`, and the step is the instruction step of an illegal word. -/
theorem illegalWordsFault : Obligations.IllegalWordsFault := by
  constructor
  · intro w
    exact decode_isOk_iff
  · intro s w e alone cell illegal
    rw [step_of_runsAlone alone, runInstr_illegal (s := s.eventTaken) cell illegal]
    rfl

end Sys2Proof.Machine

namespace Sys2Proof

open Machine

/-! ## The opcode table -/

/-- The bits of a field that its kind fixes at 0: bit 24 of a direct register, every bit of an unused field (R81). -/
def OperandKind.fixedBits : OperandKind → BitVec 32
  | .direct => BitVec.twoPow 32 24
  | .register => 0
  | .literal => 0
  | .moveSource => 0
  | .unused => BitVec.allOnes 32

theorem fieldLegal_iff_fixedBits {k : OperandKind} {f : BitVec 32} : FieldLegal k f ↔ f &&& k.fixedBits = 0 := by
  cases k with
  | direct =>
    have bit : f &&& BitVec.twoPow 32 24 = 0 ↔ f.getLsbD 24 = false := by
      rw [BitVec.and_twoPow]
      cases f.getLsbD 24 <;> decide
    simpa [FieldLegal, OperandKind.fixedBits] using bit.symm
  | unused => simp [FieldLegal, OperandKind.fixedBits, -BitVec.reduceAllOnes]
  | _ => simp [FieldLegal, OperandKind.fixedBits]

/-- The row of the table for an opcode and a source kind: it fixes the whole header, and of each field the bits its kind
fixes. -/
def tableRow (mnemonic : String) (o : Opcode) (k : BitVec 2) : TableRow :=
  ⟨mnemonic, packWord (header o k) 0 0 0,
    packWord (BitVec.allOnes 32) o.kinds.1.fixedBits o.kinds.2.1.fixedBits o.kinds.2.2.fixedBits⟩

/-- The opcodes with the source kinds they take, Move with three, in the order of the table. -/
def opcodeForms : List (String × Opcode × BitVec 2) :=
  [("Add", .add, 0), ("Mul", .mul, 0), ("Increment", .increment, 0), ("Decrement", .decrement, 0),
    ("Move", .move, 0), ("Move", .move, 1), ("Move", .move, 2), ("Load", .load, 0), ("Push", .push, 0),
    ("Pop", .pop, 0), ("Call", .call, 0), ("Ret", .ret, 0), ("Jump", .jump, 0), ("JumpIfTrue", .jumpIfTrue, 0),
    ("TestEquals", .testEquals, 0), ("Echo", .echo, 0), ("Iinput", .iinput, 0), ("Halt", .halt, 0)]

/-- The table copied from spec/opcode_table.json is the one that the kinds of R80 give. -/
theorem opcodeTable_eq : opcodeTable = opcodeForms.map fun p => tableRow p.1 p.2.1 p.2.2 := by decide

theorem takesSource_of_mem_opcodeForms : ∀ p ∈ opcodeForms, p.2.1.TakesSource p.2.2 := by decide

/-- The row of an instruction is that of its opcode and source kind. -/
theorem opcodeForms_row (i : Instr) : ∃ m, opcodeForms[i.row]? = some (m, i.opcode, i.sourceKind) := by
  cases i <;> exact ⟨_, rfl⟩

/-- A header is its three parts. -/
theorem header_eq_iff {r : BitVec 22} {k k' : BitVec 2} {b : BitVec 8} {o : Opcode} :
    r ++ (k ++ b) = header o k' ↔ b = o.code ∧ r = 0 ∧ k = k' := by
  constructor
  · intro same
    have parts := congrArg BitVec.toNat same
    simp only [header, append_toNat, BitVec.toNat_ofNat] at parts
    refine ⟨BitVec.eq_of_toNat_eq ?_, BitVec.eq_of_toNat_eq (?_ : r.toNat = 0), BitVec.eq_of_toNat_eq ?_⟩ <;> omega
  · rintro ⟨rfl, rfl, rfl⟩
    rfl

/-- A row covers the words of its header whose fields are legal. -/
theorem tableRow_covers {m : String} {o : Opcode} {k : BitVec 2} {w : InstrWord} :
    (tableRow m o k).covers w = true ↔
      opField w = o.code ∧ rsvField w = 0 ∧ kField w = k ∧ o.FieldsLegal (fieldA w) (fieldB w) (fieldC w) := by
  rw [TableRow.covers, beq_iff_eq, tableRow]
  conv_lhs => rw [← packWord_fields w, packWord_and, BitVec.and_allOnes, packWord_inj, header_eq_iff]
  simp only [Opcode.FieldsLegal, fieldLegal_iff_fixedBits, and_assoc]

/-- A word that decodes is covered by the row of its instruction. -/
theorem row_covers {w : InstrWord} {i : Instr} (h : decode w = .ok i) :
    ∃ r, opcodeTable[i.row]? = some r ∧ r.covers w = true := by
  obtain ⟨o, checks, assembled⟩ := decode_eq_ok.mp h
  obtain ⟨rfl, source, -⟩ := assemble_eq_ok checks assembled
  obtain ⟨op, rsv, -, legal⟩ := checks
  obtain ⟨m, row⟩ := opcodeForms_row i
  refine ⟨tableRow m i.opcode i.sourceKind, ?_, tableRow_covers.mpr ⟨op, rsv, source.symm, legal⟩⟩
  rw [opcodeTable_eq, List.getElem?_map, row]
  rfl

/-- A word that a row covers passes the checks of the row's opcode. -/
theorem wordChecks_of_covers {w : InstrWord} {r : TableRow} (hr : r ∈ opcodeTable) (h : r.covers w = true) :
    ∃ o, WordChecks o w := by
  rw [opcodeTable_eq] at hr
  obtain ⟨⟨m, o, k⟩, form, rfl⟩ := List.mem_map.mp hr
  obtain ⟨op, rsv, rfl, legal⟩ := tableRow_covers.mp h
  exact ⟨o, op, rsv, takesSource_of_mem_opcodeForms _ form, legal⟩

/-- Settles O5: a decoded word is covered by its instruction's row, and a covered word passes the checks. -/
theorem decoderAgreesWithOpcodeTable : Obligations.DecoderAgreesWithOpcodeTable := by
  intro w
  refine ⟨⟨?_, ?_⟩, fun i => row_covers⟩
  · rintro ⟨i, h⟩
    obtain ⟨r, row, covered⟩ := row_covers h
    exact ⟨r, List.mem_of_getElem? row, covered⟩
  · rintro ⟨r, hr, covered⟩
    exact decode_isOk_iff.mpr (wordChecks_of_covers hr covered)

end Sys2Proof
end

section
/-! PROOFS. The cell format (30_encoding.md R71, R72) and the example words of R89. -/

namespace Sys2Proof

/-! ## Cells -/

/-- A cell is its tag and its payload (R71). -/
theorem cell_eq_tag_payload (c : BitVec 130) : (cellTag c ++ cellPayload c : BitVec 130) = c := by
  apply BitVec.eq_of_toNat_eq
  rw [append_toNat, cellTag, cellPayload, extract_toNat, extract_toNat]
  omega

@[simp] theorem cellTag_append (t : BitVec 2) (p : BitVec 128) : cellTag (t ++ p) = t :=
  BitVec.extractLsb'_append_eq_left

@[simp] theorem cellPayload_append (t : BitVec 2) (p : BitVec 128) : cellPayload (t ++ p) = p :=
  BitVec.extractLsb'_append_eq_right

/-- The low 32 bits of a payload whose other bits are zero. -/
theorem zero_append_eq_iff {p : BitVec 128} {n : BitVec 32} :
    0#96 ++ n = p ↔ p.extractLsb' 32 96 = 0#96 ∧ p.extractLsb' 0 32 = n := by
  constructor
  · rintro rfl
    exact ⟨BitVec.extractLsb'_append_eq_left, BitVec.extractLsb'_append_eq_right⟩
  · rintro ⟨high, rfl⟩
    rw [← high]
    exact (BitVec.extractLsb'_append_extractLsb'_eq_extractLsb' (by rfl)).trans BitVec.extractLsb'_eq_self

/-- Reading the cell of a value gives the value. -/
theorem ofCell_toCell (v : Value) : Value.ofCell v.toCell = some v := by
  cases v with
  | empty => rfl
  | int n =>
    have tag : cellTag (Value.int n).toCell = 1#2 := cellTag_append _ _
    have payload : cellPayload (Value.int n).toCell = 0#96 ++ n := cellPayload_append _ _
    obtain ⟨high, low⟩ := zero_append_eq_iff.mp payload.symm
    simp [Value.ofCell, tag, high, low]
  | text t =>
    have tag : cellTag (Value.text t).toCell = 2#2 := cellTag_append _ _
    have payload : cellPayload (Value.text t).toCell = 0#96 ++ t := cellPayload_append _ _
    obtain ⟨high, low⟩ := zero_append_eq_iff.mp payload.symm
    simp [Value.ofCell, tag, high, low]
  | instr w =>
    have tag : cellTag (Value.instr w).toCell = 3#2 := cellTag_append _ _
    have payload : cellPayload (Value.instr w).toCell = w := cellPayload_append _ _
    simp [Value.ofCell, tag, payload]

/-- A tag is one of four. -/
theorem tag_eq_three {t : BitVec 2} (h0 : t ≠ 0#2) (h1 : t ≠ 1#2) (h2 : t ≠ 2#2) : t = 3#2 := by
  revert t
  decide

/-- A cell that reads as a value is that value's cell: its tag, and its payload with the zero bits of R72. -/
theorem toCell_of_ofCell {c : BitVec 130} {v : Value} (h : Value.ofCell c = some v) : v.toCell = c := by
  rw [← cell_eq_tag_payload c]
  unfold Value.ofCell at h
  split at h
  next tag =>
    obtain ⟨payload, ⟨⟩⟩ := Option.ite_none_right_eq_some.mp h
    rw [tag, payload]
    rfl
  next tag =>
    obtain ⟨high, ⟨⟩⟩ := Option.ite_none_right_eq_some.mp h
    have payload := zero_append_eq_iff.mpr ⟨high, rfl⟩
    rw [tag]
    exact congrArg (1#2 ++ ·) payload
  next tag =>
    obtain ⟨high, ⟨⟩⟩ := Option.ite_none_right_eq_some.mp h
    have payload := zero_append_eq_iff.mpr ⟨high, rfl⟩
    rw [tag]
    exact congrArg (2#2 ++ ·) payload
  next notEmpty notInt notText =>
    cases h
    rw [tag_eq_three notEmpty notInt notText]
    rfl

/-- Settles O8, by the tag: each one says what the payload stands for. -/
theorem cellFormatRoundTrips : Obligations.CellFormatRoundTrips := by
  refine ⟨?_, ofCell_toCell, fun _ _ => toCell_of_ofCell⟩
  intro v
  cases v with
  | empty => rfl
  | int n | text n | instr n =>
    simp only [Value.toCell, append_toNat, BitVec.toNat_ofNat]
    omega

/-! ## The example words of R89 -/

theorem encode_exampleMul :
    encode (.mul ⟨0, false, 0⟩ ⟨1, false, 0⟩ ⟨2, false, 0⟩) = 0x00000002_00000001_00000000_00000002#128 := by decide

theorem encode_exampleMove :
    encode (.moveText ⟨3, true, -1⟩ 7) = 0x00000000_00000007_01FFFF03_00000205#128 := by decide

/-- Settles O7: the two words are encoded, and decoding inverts encoding. -/
theorem exampleWordsDecode : Obligations.ExampleWordsDecode := by
  refine ⟨?_, encode_exampleMul, by decide, ?_, encode_exampleMove⟩
  · rw [← encode_exampleMul]
    exact decodeInvertsEncode _ rfl
  · rw [← encode_exampleMove]
    exact decodeInvertsEncode _ rfl

end Sys2Proof
end

section
/-! PROOFS. The effective address (30_encoding.md R75): its range, and its agreement with its W-bit wrap. -/

namespace Sys2Proof

/-- The bound of R8 on MEM_SIZE. -/
theorem Config.memSize_le (c : Config) : c.memSize ≤ 2147450880 := by
  obtain ⟨-, bound, -⟩ := configOk_iff.mp c.ok
  exact bound

end Sys2Proof

namespace Sys2Proof.Machine

/-- An effective address fits W + 1 bits. -/
theorem effectiveAddress_bounds {s : State} {d : Descriptor} {a : Int} (h : effectiveAddress s d = .ok a) :
    -2147516416 ≤ a ∧ a ≤ 2147516414 := by
  obtain ⟨b, -, rfl⟩ := effectiveAddress_ok.mp h
  have base := word_toInt_bounds b
  have offset := offset_toInt_bounds d.off
  omega

/-- The wrap of a number that is too large for W bits, by no more than an offset can take it. -/
theorem wrap_of_above {a : Int} (low : 2147483648 ≤ a) (high : a ≤ 2147516414) :
    (BitVec.ofInt 32 a).toInt < 0 := by
  have wrap := wrapW_toInt_emod a
  have bounds := word_toInt_bounds (wrapW a)
  unfold wrapW at wrap bounds
  omega

/-- The wrap of a number that is too small for W bits lies above every memory (R8, R75). -/
theorem wrap_of_below {a : Int} (low : -2147516416 ≤ a) (high : a < -2147483648) :
    2147450880 ≤ (BitVec.ofInt 32 a).toInt := by
  have wrap := wrapW_toInt_emod a
  have bounds := word_toInt_bounds (wrapW a)
  unfold wrapW at wrap bounds
  omega

/-- R75: a number in the range of effective addresses and its wrap to W bits name the same cell, or none. -/
theorem wrap_agrees (s : State) {a : Int} (low : -2147516416 ≤ a) (high : a ≤ 2147516414) :
    (¬ OutOfMem s a ∧ (BitVec.ofInt 32 a).toInt = a) ∨ (OutOfMem s a ∧ OutOfMem s (BitVec.ofInt 32 a).toInt) := by
  have memSize := Config.memSize_le s.cfg
  rcases lt_or_ge a (-2147483648) with below | notBelow
  · have wrap := wrap_of_below low below
    exact .inr ⟨.inl (by omega), .inr (by omega)⟩
  rcases lt_or_ge a 2147483648 with fits | above
  · have wrap : (BitVec.ofInt 32 a).toInt = a := wrapW_toInt notBelow fits
    rw [wrap]
    tauto
  · have wrap := wrap_of_above above high
    exact .inr ⟨.inr (by omega), .inl wrap⟩

/-- Settles O15, from the base's cases and the bound on the memory. -/
theorem effectiveAddressIsExact : Obligations.EffectiveAddressIsExact := by
  intro s d
  refine ⟨?_, ?_, ?_⟩
  · intro b holds
    exact effectiveAddress_ok.mpr ⟨b, holds, rfl⟩
  · intro k fault
    exact effectiveAddress_error.mpr ⟨fault, rfl⟩
  · intro a h
    obtain ⟨low, high⟩ := effectiveAddress_bounds h
    exact ⟨low, high, wrap_agrees s low high⟩

end Sys2Proof.Machine
end

section
/-! PROOFS. The steps of the fetch-decode-execute machine: what each event and state gives (40_execution_unit.md R100, R101,
R111, R113), the fetch and its faults (R102 to R107), and the word placed for the next fetch (log entry 6). -/

namespace Sys2Proof.Machine

/-! ## Steps without an instruction -/

theorem coreStep_of_not_run {s : State} (h : s.fsm ≠ .run) : coreStep s = .next s := by
  cases hf : s.fsm with
  | run => exact absurd hf h
  | load | waitIn | halted | faulted => simp only [coreStep, hf]

theorem step_of_accepted {s t : State} (h : hostAct s.nextEvent s.eventTaken = some t) : step s = .next t := by
  rw [step_by_event, h]

theorem step_of_refused {s : State} (h : hostAct s.nextEvent s.eventTaken = none) : step s = coreStep s.eventTaken := by
  rw [step_by_event, h]

/-- Outside RUN a refused event leaves an idle step (log entries 5 and 7). -/
theorem step_idles {s : State} (notRun : s.fsm ≠ .run) (h : hostAct s.nextEvent s.eventTaken = none) :
    step s = .next s.eventTaken :=
  (step_of_refused h).trans (coreStep_of_not_run (s := s.eventTaken) notRun)

theorem step_reset {s : State} (event : s.nextEvent = .reset) : step s = .next (resetCore s.eventTaken) :=
  step_of_accepted (by rw [event]; rfl)

theorem step_start {s : State} (load : s.fsm = .load) (event : s.nextEvent = .start) :
    step s = .next ((s.eventTaken.setPc 0).setFsm .run) :=
  step_of_accepted (by simp [event, hostAct, load])

theorem step_waits {s : State} (wait : s.fsm = .waitIn) (noReset : s.nextEvent ≠ .reset)
    (noResponse : ∀ r, s.nextEvent ≠ .respond r) : step s = .next s.eventTaken :=
  step_idles (by simp [wait]) (hostAct_waitIn (s := s.eventTaken) wait noReset noResponse)

/-- A refused event is as good as `idle`: the core takes its own step either way (U16). -/
theorem step_eventIgnored {s : State} (h : hostAct s.nextEvent s.eventTaken = none) : step s = step s.eventIgnored :=
  (step_of_refused h).trans (step_of_refused (s := s.eventIgnored) rfl).symm

/-- Settles O40: no event but `reset` is accepted, and outside RUN the core does nothing by itself. -/
theorem terminalStatesWaitForReset : Obligations.TerminalStatesWaitForReset := by
  intro s ended noReset
  have notRun : s.fsm ≠ .run := by rcases ended with h | h <;> simp [h]
  exact step_idles notRun (hostAct_ended (s := s.eventTaken) ended noReset)

/-- Settles O38: `start` is accepted in LOAD, and refused in every other state. -/
theorem startBeginsExecutionAtZero : Obligations.StartBeginsExecutionAtZero := by
  refine ⟨fun s load event => ?_, fun s load event => step_start load event, fun s notLoad event => ?_⟩
  · exact step_idles (by simp [load]) (by rw [event]; rfl)
  · exact step_eventIgnored (by simp [event, hostAct, notLoad])

/-! ## The fetch and its instruction -/

theorem runInstr_of_fetchFault {s : State} {e : Raise} (h : fetchWord (latchPc s) = .error e) :
    runInstr s = .next (enterFaulted (latchPc s) e) := by
  simp only [runInstr, h]

/-- Where the cell at pc decodes to `i`, the instruction step is exec of `i` after latch and advance (R102, R105, R107). -/
theorem runInstr_of_fetches {s : State} {i : Instr} (h : Fetches s i) :
    runInstr s = exec i (advancePc (latchPc s)) := by
  obtain ⟨w, cell, decoded⟩ := h
  have fetched : fetchWord (latchPc s) = .ok w := fetchWord_ok.mpr cell
  simp only [runInstr, fetched, decoded]

theorem Fetches.inMem {s : State} {i : Instr} (h : Fetches s i) :
    0 ≤ s.pc.toInt ∧ s.pc.toInt < (s.cfg.memSize : Int) := by
  obtain ⟨w, ⟨low, high, -⟩, -⟩ := h
  exact ⟨low, high⟩

/-- Settles O29: the step is the instruction step of what is fetched, from an address in memory. -/
theorem stepRunsTheDecodedInstruction : Obligations.StepRunsTheDecodedInstruction := by
  intro s i alone fetches
  obtain ⟨noWrap, -⟩ := pcFollows_advancePc fetches.inMem
  exact ⟨(step_of_runsAlone alone).trans (runInstr_of_fetches (s := s.eventTaken) fetches), noWrap⟩

/-- A step whose fetch raises `e` with pc as its info enters FAULTED and leaves pc; FAULT_INFO is wide enough (R103, R104). -/
theorem step_of_fetchFault {s : State} {c : FaultCause} (alone : s.runsAlone)
    (raised : fetchWord (latchPc s.eventTaken) = .error ⟨c, s.pc.toInt⟩) :
    ∃ t, step s = .next t ∧ t.faultInfo.toInt = s.pc.toInt ∧
      t = { s.eventTaken with
        curPc := s.pc, fsm := .faulted, faultCause := c, faultPc := s.pc, faultInfo := t.faultInfo } := by
  have bounds := word_toInt_bounds s.pc
  have exact_info : (BitVec.ofInt 33 s.pc.toInt).toInt = s.pc.toInt := infoWord_toInt (by omega) (by omega)
  exact ⟨_, (step_of_runsAlone alone).trans (runInstr_of_fetchFault raised), exact_info, rfl⟩

/-- Settles O31, by the two faults a fetch raises. -/
theorem fetchFaultsLeavePc : Obligations.FetchFaultsLeavePc := by
  intro s alone
  constructor
  · intro outside
    exact step_of_fetchFault alone (fetchWord_error.mpr (.inl ⟨outside, rfl⟩))
  · intro inside noInstr
    exact step_of_fetchFault alone (fetchWord_error.mpr (.inr ⟨inside, noInstr, rfl⟩))

/-! ## Every step answers -/

theorem exec_answers (i : Instr) (s : State) : ∃ t, exec i s = .next t := by
  rw [exec_eq_commit]
  cases h : instrOp i s with
  | ok t => exact ⟨t, rfl⟩
  | error e => exact ⟨enterFaulted s e, rfl⟩

theorem runInstr_answers (s : State) : ∃ t, runInstr s = .next t := by
  cases fetched : fetchWord (latchPc s) with
  | error e => exact ⟨_, runInstr_of_fetchFault fetched⟩
  | ok w =>
    have cell : CellHolds s s.pc.toInt (.instr w) := fetchWord_ok.mp fetched
    cases decoded : decode w with
    | error e => exact ⟨_, runInstr_illegal cell decoded⟩
    | ok i =>
      rw [runInstr_of_fetches ⟨w, cell, decoded⟩]
      exact exec_answers i _

theorem coreStep_answers (s : State) : ∃ t, coreStep s = .next t := by
  by_cases run : s.fsm = .run
  · obtain ⟨t, answer⟩ := runInstr_answers s
    exact ⟨t, by simpa only [coreStep, run] using answer⟩
  · exact ⟨s, coreStep_of_not_run run⟩

/-- Settles O32: an accepted event is a next state, and the core by itself answers one. -/
theorem everyStepAnswersNext : Obligations.EveryStepAnswersNext := by
  intro s
  cases h : hostAct s.nextEvent s.eventTaken with
  | some t => exact ⟨t, step_of_accepted h⟩
  | none =>
    rw [step_of_refused h]
    exact coreStep_answers _

/-! ## The placed word -/

theorem decodeTableWord_eq_some {nbits w : Nat} {i : Instr} :
    decodeTableWord nbits w = some i ↔ decode (tableWord nbits w) = .ok i := by
  unfold decodeTableWord
  cases decode (tableWord nbits w) <;> simp

/-- The reset vector is in every memory (R8). -/
theorem not_outOfMem_zero (s : State) : ¬ OutOfMem s 0 := by
  obtain ⟨memSize_pos, -⟩ := configOk_iff.mp s.cfg.ok
  exact not_outOfMem.mpr ⟨le_refl 0, by omega⟩

/-- The next fetch after `placeFetch` is at an address in memory: pc where that is one, else 0. -/
theorem placeFetch_eq (s : State) :
    ∃ p, placeFetch s = s.setPc p ∧ ¬ OutOfMem s p.toInt ∧
      (¬ OutOfMem s s.pc.toInt → p = s.pc) ∧ (OutOfMem s s.pc.toInt → p = 0) := by
  by_cases h : canFetch s = true
  · have inside : ¬ OutOfMem s s.pc.toInt := not_outOfMem.mpr (State.inMem_iff.mp h)
    exact ⟨s.pc, if_pos h, inside, fun _ => rfl, fun outside => absurd outside inside⟩
  · have outside : OutOfMem s s.pc.toInt := State.inMem_false_iff.mp (Bool.eq_false_iff.mpr h)
    exact ⟨0, if_neg h, not_outOfMem_zero s, fun inside => absurd outside inside, fun _ => rfl⟩

/-- The state of `placeWord`, with `p` the pc of `placeFetch`. -/
def placedAt (s : State) (p : Word) (w : InstrWord) : State :=
  (((s.setPc p).setCell p.toInt.toNat (.instr w)).setFsm .run).setHost (.idle :: s.host)

theorem placeWord_eq {s : State} {p : Word} (h : placeFetch s = s.setPc p) (w : InstrWord) :
    placeWord s w = placedAt s p w := by
  simp only [placeWord, h]
  rfl

theorem placedAt_cell (s : State) (p : Word) (w : InstrWord) : (placedAt s p w).cell p.toInt.toNat = .instr w :=
  State.cell_setCell_same (s.setPc p) p.toInt.toNat (.instr w)

theorem placedAt_cell_other (s : State) (p : Word) (w : InstrWord) {a : Nat} (ha : a ≠ p.toInt.toNat) :
    (placedAt s p w).cell a = s.cell a :=
  Cells.read_write_other s.mem (.instr w) ha

theorem placedAt_fetches {s : State} {p : Word} {w : InstrWord} {i : Instr} (inside : ¬ OutOfMem s p.toInt)
    (decoded : decode w = .ok i) : Fetches (placedAt s p w) i := by
  obtain ⟨low, high⟩ := not_outOfMem.mp inside
  exact ⟨w, ⟨low, high, placedAt_cell s p w, by simp⟩, decoded⟩

/-- Settles O30: the placed word is fetched, and the idle event placed with it is the one that the step takes. -/
theorem placedWordRunsNext : Obligations.PlacedWordRunsNext := by
  intro s nbits w i h
  obtain ⟨p, placed, inside, kept, zero⟩ := placeFetch_eq s
  have fetches := placedAt_fetches inside (decodeTableWord_eq_some.mp h)
  have alone : (placedAt s p (tableWord nbits w)).runsAlone := ⟨rfl, nofun⟩
  obtain ⟨runs, -⟩ := stepRunsTheDecodedInstruction _ i alone fetches
  rw [State.withFetchWord, placeWord_eq placed]
  exact ⟨_, runs, rfl, kept, zero, placedAt_cell s p _, fun a ha => placedAt_cell_other s p _ ha⟩

/-! ## The transitions of STATE -/

/-- In LOAD every accepted event but `start` leaves the core in LOAD. -/
theorem hostAct_stays_load {e : HostEvent} {s t : State} (load : s.fsm = .load) (noStart : e ≠ .start)
    (h : hostAct e s = some t) : t.fsm = .load := by
  cases e with
  | idle => cases h
  | reset =>
    cases h
    rfl
  | start => exact absurd rfl noStart
  | loadMem a v =>
    obtain ⟨-, hwrite⟩ := Option.ite_none_right_eq_some.mp h
    obtain ⟨-, rfl⟩ := portWrite_some.mp hwrite
    exact load
  | loadReg i v =>
    obtain ⟨-, ⟨⟩⟩ := Option.ite_none_right_eq_some.mp h
    exact load
  | loadFlag b =>
    obtain ⟨-, ⟨⟩⟩ := Option.ite_none_right_eq_some.mp h
    exact load
  | respond r =>
    obtain ⟨wait, -⟩ := Option.ite_none_right_eq_some.mp h
    rw [load] at wait
    cases wait

theorem step_stays_load {s t : State} (load : s.fsm = .load) (noStart : s.nextEvent ≠ .start) (h : step s = .next t) :
    t.fsm = .load := by
  obtain hact | ⟨run, -⟩ | ⟨-, rfl⟩ := step_cases h
  · exact hostAct_stays_load (s := s.eventTaken) load noStart hact
  · rw [load] at run
    cases run
  · exact load

/-- An instruction halts exactly if it is Halt, and waits exactly if it is an Iinput (R109, R111). -/
theorem exec_fsm {i : Instr} {s t : State} (run : s.fsm = .run) (h : exec i s = .next t) :
    t.fsm ≠ .load ∧ (t.fsm = .halted ↔ i = .halt) ∧ (t.fsm = .waitIn ↔ ∃ addr, i = .iinput addr) := by
  by_cases isHalt : i = .halt
  · subst isHalt
    cases h
    simp
  by_cases isIinput : ∃ addr, i = .iinput addr
  · obtain ⟨addr, rfl⟩ := isIinput
    cases h
    simp
  · obtain ⟨-, -, -, -, -, fsm, -⟩ := theRestOfTheStateIsFramed i s t h
    rcases fsm (not_exists.mp isIinput) isHalt with same | faulted
    · simp [same, run, isHalt, isIinput]
    · simp [faulted, isHalt, isIinput]

theorem Fetches.unique {s : State} {i j : Instr} (hi : Fetches s i) (hj : Fetches s j) : i = j := by
  obtain ⟨w, ⟨-, -, cell, -⟩, decoded⟩ := hi
  obtain ⟨w', ⟨-, -, cell', -⟩, decoded'⟩ := hj
  obtain rfl : w = w' := Value.instr.inj (cell.symm.trans cell')
  exact Except.ok.inj (decoded.symm.trans decoded')

/-- Where nothing is fetched that decodes, the step faults (R103, R104, R106). -/
theorem runInstr_of_not_fetches {s t : State} (nothing : ∀ i, ¬ Fetches s i) (h : runInstr s = .next t) :
    t.fsm = .faulted := by
  obtain ⟨-, rfl⟩ | ⟨-, -, rfl⟩ | ⟨w, e, -, -, rfl⟩ | ⟨w, i, cell, decoded, -⟩ := runInstr_cases h
  case inr.inr.inr => exact absurd ⟨w, cell, decoded⟩ (nothing i)
  all_goals rfl

theorem runInstr_fsm {s t : State} (run : s.fsm = .run) (h : runInstr s = .next t) :
    t.fsm ≠ .load ∧ (t.fsm = .halted ↔ Fetches s .halt) ∧ (t.fsm = .waitIn ↔ ∃ addr, Fetches s (.iinput addr)) := by
  by_cases fetched : ∃ i, Fetches s i
  · obtain ⟨i, fetches⟩ := fetched
    have fetches_iff (j : Instr) : Fetches s j ↔ i = j := ⟨fetches.unique, fun same => same ▸ fetches⟩
    rw [runInstr_of_fetches fetches] at h
    simpa only [fetches_iff] using exec_fsm (s := advancePc (latchPc s)) run h
  · have nothing := not_exists.mp fetched
    simp [runInstr_of_not_fetches nothing h, nothing]

/-- The response faults the waiting Iinput: InEOS, or an integer for an address outside memory (R183). -/
abbrev ResponseFaults (r : InResponse) (s : State) : Prop :=
  r = .eos ∨ (OutOfMem s s.inAddr.toInt ∧ ∃ n, r = .int n)

theorem iinputComplete_fsm (r : InResponse) (s : State) :
    (¬ ResponseFaults r s ∧ (iinputComplete r s).fsm = .run) ∨
      (ResponseFaults r s ∧ (iinputComplete r s).fsm = .faulted) := by
  obtain ⟨n, rfl, inside, h⟩ | ⟨n, rfl, outside, h⟩ | ⟨rfl | rfl, h⟩ | ⟨rfl, h⟩ := iinputComplete_cases r s <;> rw [h]
  · exact .inl ⟨by simpa [ResponseFaults] using inside, rfl⟩
  · exact .inr ⟨.inr ⟨outside, n, rfl⟩, rfl⟩
  · exact .inl ⟨by simp [ResponseFaults], rfl⟩
  · exact .inl ⟨by simp [ResponseFaults], rfl⟩
  · exact .inr ⟨.inl rfl, rfl⟩

/-- WAIT_IN stays without a response, and with one goes where the completion goes. -/
theorem step_waitIn_fsm {s t : State} (wait : s.fsm = .waitIn) (noReset : s.nextEvent ≠ .reset) (h : step s = .next t) :
    t.fsm ≠ .load ∧ t.fsm ≠ .halted ∧ (t.fsm = .waitIn ↔ ∀ r, s.nextEvent ≠ .respond r) ∧
      (t.fsm = .faulted ↔ s.nextEvent = .respond .eos ∨
        (OutOfMem s s.inAddr.toInt ∧ ∃ n, s.nextEvent = .respond (.int n))) := by
  by_cases response : ∃ r, s.nextEvent = .respond r
  · obtain ⟨r, event⟩ := response
    rw [step_respond wait event] at h
    cases h
    have faults_iff : ResponseFaults r s.eventTaken ↔ s.nextEvent = .respond .eos ∨
        (OutOfMem s s.inAddr.toInt ∧ ∃ n, s.nextEvent = .respond (.int n)) := by
      simp only [event, HostEvent.respond.injEq]
      rfl
    rw [← faults_iff]
    obtain ⟨completes, fsm⟩ | ⟨faults, fsm⟩ := iinputComplete_fsm r s.eventTaken
    · simp [fsm, event, completes]
    · simp [fsm, event, faults]
  · have noResponse := not_exists.mp response
    rw [step_waits wait noReset noResponse] at h
    cases h
    simp [wait, noResponse]

/-- Settles O33: by the host's event, then by the state the step begins in. -/
theorem onlyTheListedTransitionsOccur : Obligations.OnlyTheListedTransitionsOccur := by
  intro s t h
  refine ⟨fun event => ?_, fun noReset => ⟨fun load => ?_, fun run => ?_, fun wait => step_waitIn_fsm wait noReset h,
    fun halted => ?_, fun faulted => ?_⟩⟩
  · rw [step_reset event] at h
    cases h
    rfl
  · by_cases event : s.nextEvent = .start
    · rw [step_start load event] at h
      cases h
      exact .inl ⟨event, rfl⟩
    · exact .inr ⟨event, step_stays_load load event h⟩
  · rw [step_of_runsAlone ⟨run, noReset⟩] at h
    exact runInstr_fsm (s := s.eventTaken) run h
  · rw [terminalStatesWaitForReset s (.inl halted) noReset] at h
    cases h
    exact halted
  · rw [terminalStatesWaitForReset s (.inr faulted) noReset] at h
    cases h
    exact faulted

end Sys2Proof.Machine
end

section
/-! PROOFS. The state no instruction reads: the host's coming events, IN_ADDR and the earlier output (10_state.md R35,
40_execution_unit.md R108). -/

namespace Sys2Proof.Machine

/-- `s` with other coming events, another IN_ADDR and another earlier output. -/
def State.withHidden (s : State) (h : List HostEvent) (ad : Word) (o : List Value) : State :=
  { s with host := h, inAddr := ad, output := o }

theorem unread_withHidden (h : List HostEvent) (ad : Word) (o : List Value) : Unread (·.withHidden h ad o) where
  cfg _ := rfl
  regs _ := rfl
  mem _ := rfl
  pc _ := rfl
  setReg _ _ _ := rfl
  setCell _ _ _ := rfl
  setPc _ _ := rfl
  setFlag _ _ := rfl
  emit _ _ := rfl
  setInAddr_setFsm _ _ _ := rfl
  setFsm _ _ := rfl
  enterFaulted _ _ := rfl
  idem _ := rfl

/-- The values an instruction appends to the output: that of an Echo whose operand resolves, and nothing else (R180). -/
def outputAdded (i : Instr) (s : State) : List Value :=
  match i with
  | .echo a => (resolve s a).toOption.toList
  | _ => []

theorem outputAdded_of_not_echo {i : Instr} (hi : ∀ a, i ≠ .echo a) (s : State) : outputAdded i s = [] := by
  cases i with
  | echo a => exact absurd rfl (hi a)
  | _ => rfl

theorem exec_output {i : Instr} {s t : State} (h : exec i s = .next t) : t.output = s.output ++ outputAdded i s := by
  by_cases echo : ∃ a, i = .echo a
  · obtain ⟨a, rfl⟩ := echo
    rw [exec_eq_commit, instrOp, echoOp] at h
    cases resolved : resolve s a with
    | ok v =>
      rw [resolved] at h
      cases h
      simp [outputAdded, resolved, Except.toOption]
    | error e =>
      rw [resolved] at h
      cases h
      simp [outputAdded, resolved, Except.toOption]
  · have notEcho := not_exists.mp echo
    obtain ⟨-, -, -, output, -⟩ := theRestOfTheStateIsFramed i s t h
    rw [output notEcho, outputAdded_of_not_echo notEcho, List.append_nil]

theorem Unread.outputAdded {g : State → State} (hg : Unread g) (i : Instr) (s : State) :
    outputAdded i (g s) = outputAdded i s := by
  cases i with
  | echo a => simp only [Machine.outputAdded, hg.resolve]
  | _ => rfl

/-- Settles O52: `withHidden` overwrites what no instruction reads, and the values appended do not depend on it either. -/
theorem instructionsDoNotReadHiddenState : Obligations.InstructionsDoNotReadHiddenState := by
  intro i s t h ad o ht
  have unread := unread_withHidden h ad o
  obtain ⟨u, hu, same⟩ := unread.exec s (.inr rfl) ht
  have rest : t = u.withHidden t.host t.inAddr t.output :=
    congrArg (·.withHidden t.host t.inAddr t.output) same.symm
  refine ⟨u, hu, rest, fun p appended => ?_⟩
  have added : outputAdded i s = p := List.append_cancel_left ((exec_output ht).symm.trans appended)
  rw [exec_output hu, unread.outputAdded, added]
  rfl

end Sys2Proof.Machine
end

section
/-! PROOFS. The ALU instructions and TestEquals (41_alu.md R123 to R128): the word, the register or flag written, and the
faults in the order of the reads. Add and Mul share one argument, and Increment and Decrement another. -/

namespace Sys2Proof.Machine

/-! ## From the computation to what the instruction does -/

/-- The number of a header: the opcode's code under the source kind, the reserved bits zero (R79). -/
theorem header_toNat (o : Opcode) (k : BitVec 2) : (header o k).toNat = 256 * k.toNat + o.code.toNat := by
  unfold header
  rw [append_toNat, append_toNat]
  simp

/-- The word of an instruction by its opcode, source kind and fields (R79). -/
theorem encodedAs_fields (i : Instr) :
    EncodedAs i (256 * i.sourceKind.toNat + i.opcode.code.toNat) i.fields.1 i.fields.2.1 i.fields.2.2 := by
  unfold EncodedAs
  rw [encode_eq_packWord, packWord_toNat, header_toNat]

theorem exec_of_ok {i : Instr} {s t : State} (op : instrOp i s = .ok t) : exec i s = .next t :=
  (exec_eq_commit i s).trans (commit_ok op)

theorem exec_of_error {i : Instr} {s : State} {e : Raise} (op : instrOp i s = .error e) :
    exec i s = .next (enterFaulted s e) :=
  (exec_eq_commit i s).trans (commit_error op)

theorem setsReg_of_regWrite {i : Instr} {s : State} {r : Nat} {v : Value} (op : instrOp i s = regWrite s r v)
    (exists_r : r < s.cfg.regCount) : SetsReg i s r v := by
  have written : instrOp i s = .ok (s.setReg r v) := op.trans (regWrite_ok.mpr ⟨exists_r, rfl⟩)
  refine ⟨s.setReg r v, exec_of_ok written, rfl, s.reg_setReg_same r v, fun q hq => ?_⟩
  simp [State.reg_setReg, hq]

/-- A raise becomes the fault record, its info exact where it fits W + 1 bits. -/
theorem faultsWith_of_error {i : Instr} {s : State} {c : FaultCause} {n : Int} (op : instrOp i s = .error ⟨c, n⟩)
    (low : -4294967296 ≤ n) (high : n < 4294967296) : FaultsWith i s c n :=
  ⟨enterFaulted s ⟨c, n⟩, exec_of_error op, infoWord_toInt low high, rfl⟩

/-- A raise whose info is a register's index: eight bits fit. -/
theorem faultsWith_register {i : Instr} {s : State} {c : FaultCause} {d : Descriptor}
    (op : instrOp i s = .error ⟨c, d.idx.toNat⟩) : FaultsWith i s c d.idx.toNat := by
  have index := d.idx.isLt
  exact faultsWith_of_error op (by omega) (by omega)

/-! ## Operations on integers -/

section
variable {s : State} {a b c : Descriptor} {x y : Word} {k : FaultCause}

theorem binaryOp_eq_regWrite (f : Word → Word → Word) (hb : HoldsInt s b.idx.toNat x) (hc : HoldsInt s c.idx.toNat y) :
    binaryOp f a b c s = regWrite s a.idx.toNat (.int (f x y)) := by
  unfold binaryOp
  rw [intOperand_ok.mpr hb, intOperand_ok.mpr hc]
  rfl

theorem binaryOp_first_fault (f : Word → Word → Word) (hb : IntFault s b.idx.toNat k) :
    binaryOp f a b c s = .error ⟨k, b.idx.toNat⟩ :=
  Checked.bind_error.mpr (.inl (intOperand_error.mpr ⟨hb, rfl⟩))

theorem binaryOp_second_fault (f : Word → Word → Word) (hb : HoldsInt s b.idx.toNat x)
    (hc : IntFault s c.idx.toNat k) : binaryOp f a b c s = .error ⟨k, c.idx.toNat⟩ :=
  Checked.bind_error.mpr (.inr ⟨x, intOperand_ok.mpr hb,
    Checked.bind_error.mpr (.inl (intOperand_error.mpr ⟨hc, rfl⟩))⟩)

theorem unaryOp_eq_regWrite (f : Word → Word) (ha : HoldsInt s a.idx.toNat x) :
    unaryOp f a s = regWrite s a.idx.toNat (.int (f x)) := by
  unfold unaryOp
  rw [intOperand_ok.mpr ha]
  rfl

theorem unaryOp_fault (f : Word → Word) (ha : IntFault s a.idx.toNat k) :
    unaryOp f a s = .error ⟨k, a.idx.toNat⟩ :=
  Checked.bind_error.mpr (.inl (intOperand_error.mpr ⟨ha, rfl⟩))

end

/-- What R123 and R124 say of an instruction that computes `f` of rB and rC into rA. -/
theorem binary_rule {i : Instr} {f : Word → Word → Word} {a b c : Descriptor} {s : State}
    (op : instrOp i s = binaryOp f a b c s) :
    (∀ x y, HoldsInt s b.idx.toNat x → HoldsInt s c.idx.toNat y → a.idx.toNat < s.cfg.regCount →
      SetsReg i s a.idx.toNat (.int (f x y))) ∧
    (∀ k, IntFault s b.idx.toNat k → FaultsWith i s k b.idx.toNat) ∧
    (∀ x k, HoldsInt s b.idx.toNat x → IntFault s c.idx.toNat k → FaultsWith i s k c.idx.toNat) ∧
    (∀ x y, HoldsInt s b.idx.toNat x → HoldsInt s c.idx.toNat y → s.cfg.regCount ≤ a.idx.toNat →
      FaultsWith i s .regRange a.idx.toNat) := by
  refine ⟨fun x y hb hc inside => ?_, fun k hb => ?_, fun x k hb hc => ?_, fun x y hb hc outside => ?_⟩
  · exact setsReg_of_regWrite (op.trans (binaryOp_eq_regWrite f hb hc)) inside
  · exact faultsWith_register (op.trans (binaryOp_first_fault f hb))
  · exact faultsWith_register (op.trans (binaryOp_second_fault f hb hc))
  · exact faultsWith_register ((op.trans (binaryOp_eq_regWrite f hb hc)).trans (regWrite_error.mpr ⟨outside, rfl⟩))

/-- What R125 and R126 say of an instruction that computes `f` of rA into rA. -/
theorem unary_rule {i : Instr} {f : Word → Word} {a : Descriptor} {s : State} (op : instrOp i s = unaryOp f a s) :
    (∀ x, HoldsInt s a.idx.toNat x → SetsReg i s a.idx.toNat (.int (f x))) ∧
    (∀ k, IntFault s a.idx.toNat k → FaultsWith i s k a.idx.toNat) := by
  refine ⟨fun x ha => ?_, fun k ha => ?_⟩
  · exact setsReg_of_regWrite (op.trans (unaryOp_eq_regWrite f ha)) ha.1
  · exact faultsWith_register (op.trans (unaryOp_fault f ha))

/-! ## Add and Mul -/

/-- Settles O9, as the binary operation whose result `wrapW` takes modulo 2^32. -/
theorem addFollowsItsRule : Obligations.AddFollowsItsRule := by
  intro a b c s
  obtain ⟨sets, faults⟩ := binary_rule (i := .add a b c) (s := s) rfl
  exact ⟨encodedAs_fields (.add a b c),
    fun x y hb hc inside => ⟨aluAdd x y, wrapW_toInt_emod _, sets x y hb hc inside⟩, faults⟩

/-- Settles O10, as O9 with the product. -/
theorem mulFollowsItsRule : Obligations.MulFollowsItsRule := by
  intro a b c s
  obtain ⟨sets, faults⟩ := binary_rule (i := .mul a b c) (s := s) rfl
  exact ⟨encodedAs_fields (.mul a b c),
    fun x y hb hc inside => ⟨aluMul x y, wrapW_toInt_emod _, sets x y hb hc inside⟩, faults⟩

/-! ## Increment and Decrement -/

/-- R125: only the greatest word wraps. -/
theorem aluInc_toInt (x : Word) :
    (aluInc x).toInt = if x.toInt = 2147483647 then -2147483648 else x.toInt + 1 := by
  obtain ⟨low, high⟩ := word_toInt_bounds x
  unfold aluInc
  split
  · next greatest =>
    rw [greatest]
    decide
  · exact wrapW_toInt (by omega) (by omega)

/-- R126: only the least word wraps. -/
theorem aluDec_toInt (x : Word) :
    (aluDec x).toInt = if x.toInt = -2147483648 then 2147483647 else x.toInt - 1 := by
  obtain ⟨low, high⟩ := word_toInt_bounds x
  unfold aluDec
  split
  · next least =>
    rw [least]
    decide
  · exact wrapW_toInt (by omega) (by omega)

/-- Settles O11, as the unary operation `aluInc`. -/
theorem incrementFollowsItsRule : Obligations.IncrementFollowsItsRule := by
  intro a s
  obtain ⟨sets, faults⟩ := unary_rule (i := .increment a) (s := s) rfl
  exact ⟨encodedAs_fields (.increment a), fun x ha => ⟨aluInc x, aluInc_toInt x, sets x ha⟩, faults⟩

/-- Settles O12, as the unary operation `aluDec`. -/
theorem decrementFollowsItsRule : Obligations.DecrementFollowsItsRule := by
  intro a s
  obtain ⟨sets, faults⟩ := unary_rule (i := .decrement a) (s := s) rfl
  exact ⟨encodedAs_fields (.decrement a), fun x ha => ⟨aluDec x, aluDec_toInt x, sets x ha⟩, faults⟩

/-! ## Equality of values and TestEquals -/

/-- The comparator on a value that is not Empty; the other value may be (R127). -/
theorem valueEq_iff {v w : Value} (hv : v ≠ .empty) : valueEq v w = true ↔ v = w := by
  cases v with
  | empty => exact absurd rfl hv
  | int _ | text _ | instr _ => cases w <;> simp [valueEq]

/-- Settles O13, by the variant of the first value. -/
theorem valueEqComparesVariantAndContent : Obligations.ValueEqComparesVariantAndContent :=
  fun _ _ h _ => valueEq_iff h

theorem valueEq_eq_decide {v w : Value} (hv : v ≠ .empty) : valueEq v w = decide (v = w) :=
  Bool.eq_iff_iff.mpr ((valueEq_iff hv).trans decide_eq_true_iff.symm)

section
variable {s : State} {a b : Descriptor} {v w : Value} {k : FaultCause}

theorem testEqualsOp_ok (ha : Holds s a.idx.toNat v) (hb : Holds s b.idx.toNat w) :
    testEqualsOp a b s = .ok (s.setFlag (valueEq v w)) :=
  Checked.bind_ok.mpr ⟨v, regRead_ok.mpr ha, Checked.bind_ok.mpr ⟨w, regRead_ok.mpr hb, rfl⟩⟩

theorem testEqualsOp_first_fault (ha : ReadFault s a.idx.toNat k) :
    testEqualsOp a b s = .error ⟨k, a.idx.toNat⟩ :=
  Checked.bind_error.mpr (.inl (regRead_error.mpr ⟨ha, rfl⟩))

theorem testEqualsOp_second_fault (ha : Holds s a.idx.toNat v) (hb : ReadFault s b.idx.toNat k) :
    testEqualsOp a b s = .error ⟨k, b.idx.toNat⟩ :=
  Checked.bind_error.mpr (.inr ⟨v, regRead_ok.mpr ha, Checked.bind_error.mpr (.inl (regRead_error.mpr ⟨hb, rfl⟩))⟩)

end

/-- Settles O14, by the reads of rA and then of rB. -/
theorem testEqualsFollowsItsRule : Obligations.TestEqualsFollowsItsRule := by
  intro a b s
  refine ⟨encodedAs_fields (.testEquals a b), fun v w ha hb => ?_, fun k ha => ?_, fun v k ha hb => ?_⟩
  · have notEmpty : v ≠ .empty := ha.2.2
    rw [← valueEq_eq_decide notEmpty]
    exact exec_of_ok (testEqualsOp_ok ha hb)
  · exact faultsWith_register (testEqualsOp_first_fault ha)
  · exact faultsWith_register (testEqualsOp_second_fault ha hb)

end Sys2Proof.Machine
end

section
/-! PROOFS. Data movement and the stack (42_data_movement.md R142 to R148): the word, the register or cell written, and the
faults in the order of the reads. R148 follows from the rules of Push and Pop. -/

namespace Sys2Proof.Machine

/-! ## From the computation to what the instruction does -/

theorem setsCell_of_ok {i : Instr} {s : State} {v : Value} {a : Int} (op : instrOp i s = .ok (s.setCell a.toNat v)) :
    SetsCell i s a v := by
  refine ⟨s.setCell a.toNat v, exec_of_ok op, rfl, s.cell_setCell_same a.toNat v, fun b hb => ?_⟩
  simp [State.cell_setCell, hb]

/-- A raise whose info is an integer literal or the value of sp. -/
theorem faultsWith_word {i : Instr} {s : State} {c : FaultCause} {w : Word} (op : instrOp i s = .error ⟨c, w.toInt⟩) :
    FaultsWith i s c w.toInt := by
  have bounds := word_toInt_bounds w
  exact faultsWith_of_error op (by omega) (by omega)

/-- A raise whose info is SP_INDEX. -/
theorem faultsWith_spIndex {i : Instr} {s : State} {c : FaultCause} (op : instrOp i s = .error ⟨c, s.cfg.spIndex⟩) :
    FaultsWith i s c s.cfg.spIndex := by
  obtain ⟨-, -, sp_lt, regCount_le⟩ := configOk_iff.mp s.cfg.ok
  exact faultsWith_of_error op (by omega) (by omega)

/-- A raise whose info is an effective address: it may need the bit beyond W (R75). -/
theorem faultsWith_address {i : Instr} {s : State} {c : FaultCause} {d : Descriptor} {a : Int} (points : Points s d a)
    (op : instrOp i s = .error ⟨c, a⟩) : FaultsWith i s c a := by
  have bounds := effectiveAddress_bounds (effectiveAddress_ok.mpr points)
  exact faultsWith_of_error op (by omega) (by omega)

/-! ## Move -/

theorem storeOperand_direct {s : State} {d : Descriptor} (direct : d.ind = false) (v : Value) :
    storeOperand s d v = regWrite s d.idx.toNat v := by
  simp [storeOperand, direct, regIndex]

/-- What R142 says of an instruction that stores `v` in a Move's destination. -/
theorem storeOperand_rule {i : Instr} {s : State} {dst : Descriptor} {v : Value}
    (op : instrOp i s = storeOperand s dst v) :
    (dst.ind = false → dst.idx.toNat < s.cfg.regCount → SetsReg i s dst.idx.toNat v) ∧
    (∀ a, dst.ind = true → Points s dst a → ¬ OutOfMem s a → SetsCell i s a v) ∧
    (dst.ind = false → s.cfg.regCount ≤ dst.idx.toNat → FaultsWith i s .regRange dst.idx.toNat) ∧
    (∀ k, dst.ind = true → IntFault s dst.idx.toNat k → FaultsWith i s k dst.idx.toNat) ∧
    (∀ a, dst.ind = true → Points s dst a → OutOfMem s a → FaultsWith i s .memRange a) := by
  refine ⟨fun direct inside => ?_, fun a indirect points inside => ?_, fun direct outside => ?_,
    fun k indirect base => ?_, fun a indirect points outside => ?_⟩
  · exact setsReg_of_regWrite (op.trans (storeOperand_direct direct v)) inside
  · exact setsCell_of_ok
      (op.trans (storeOperand_ok.mpr (.inr ⟨indirect, a, points, not_outOfMem.mp inside, rfl⟩)))
  · exact faultsWith_register (op.trans (storeOperand_error.mpr (.inl ⟨direct, outside, rfl⟩)))
  · exact faultsWith_register (op.trans (storeOperand_error.mpr (.inr (.inl ⟨indirect, base, rfl⟩))))
  · exact faultsWith_address points
      (op.trans (storeOperand_error.mpr (.inr (.inr ⟨indirect, a, points, outside, rfl⟩))))

/-- A Move whose register source faults does so before its destination is looked at (R142). -/
theorem moveReg_source_fault {dst src : Descriptor} {s : State} {k : FaultCause} {n : Int}
    (source : SourceFault s src k n) : FaultsWith (.moveReg dst src) s k n := by
  have op : instrOp (.moveReg dst src) s = .error ⟨k, n⟩ :=
    Checked.bind_error.mpr (.inl (resolve_error.mpr source))
  obtain ⟨-, -, rfl⟩ | ⟨-, -, rfl⟩ | ⟨-, points, -⟩ := source
  · exact faultsWith_register op
  · exact faultsWith_register op
  · exact faultsWith_address points op

/-- Settles O16: a Move with its source at hand is the store of that value in the destination. -/
theorem moveFollowsItsRule : Obligations.MoveFollowsItsRule :=
  ⟨fun _ _ _ _ moves => storeOperand_rule moves.instrOp_eq, fun _ _ _ _ _ => moveReg_source_fault,
    fun dst src n h => ⟨encodedAs_fields (.moveReg dst src), encodedAs_fields (.moveInt dst n),
      encodedAs_fields (.moveText dst h)⟩⟩

/-! ## Load -/

theorem loadOp_eq_regWrite {a : Descriptor} {addr : Word} {s : State} {v : Value} (cell : CellHolds s addr.toInt v) :
    loadOp a addr s = regWrite s a.idx.toNat v := by
  unfold loadOp literalAddress
  rw [memRead_ok.mpr cell]
  rfl

theorem loadOp_cell_fault {a : Descriptor} {addr : Word} {s : State} {k : FaultCause}
    (cell : CellFault s addr.toInt k) : loadOp a addr s = .error ⟨k, addr.toInt⟩ :=
  Checked.bind_error.mpr (.inl (memRead_error.mpr ⟨cell, rfl⟩))

/-- Settles O17, by the read of the cell and then the write of rA. -/
theorem loadFollowsItsRule : Obligations.LoadFollowsItsRule := by
  intro a addr s
  refine ⟨encodedAs_fields (.load a addr), fun v cell inside => ?_, fun k cell => ?_, fun v cell outside => ?_⟩
  · exact setsReg_of_regWrite (loadOp_eq_regWrite cell) inside
  · exact faultsWith_word (loadOp_cell_fault cell)
  · exact faultsWith_register ((loadOp_eq_regWrite cell).trans (regWrite_error.mpr ⟨outside, rfl⟩))

/-! ## Push -/

section
variable {a : Descriptor} {s : State} {v : Value} {k : FaultCause}

theorem pushOp_eq_pushVal (source : Holds s a.idx.toNat v) : pushOp a s = pushVal s v := by
  unfold pushOp regIndex
  rw [regRead_ok.mpr source]
  rfl

theorem pushOp_source_fault (source : ReadFault s a.idx.toNat k) : pushOp a s = .error ⟨k, a.idx.toNat⟩ :=
  Checked.bind_error.mpr (.inl (regRead_error.mpr ⟨source, rfl⟩))

theorem pushVal_sp_fault (stack : IntFault s s.cfg.spIndex k) : pushVal s v = .error ⟨k, s.cfg.spIndex⟩ :=
  pushVal_error.mpr (.inl ⟨stack, rfl⟩)

theorem pushVal_range_fault {sp : Word} (stack : HoldsInt s s.cfg.spIndex sp) (outside : OutOfMem s sp.toInt) :
    pushVal s v = .error ⟨.memRange, sp.toInt⟩ :=
  pushVal_error.mpr (.inr ⟨sp, stack, outside, rfl⟩)

end

/-- The state of a push at a stack address in memory; sp does not wrap, since its value is not negative (R145). -/
theorem pushed_of_inside {s : State} {sp : Word} (v : Value) (inside : ¬ OutOfMem s sp.toInt) :
    Pushed s ((s.setCell sp.toInt.toNat v).setReg s.cfg.spIndex (.int (wrapW (sp.toInt - 1)))) sp v := by
  obtain ⟨notNegative, -⟩ := not_outOfMem.mp inside
  have bounds := word_toInt_bounds sp
  refine ⟨State.cell_setCell_same s _ v, fun b hb => ?_, ⟨_, State.reg_setReg_same _ _ _, ?_⟩, fun q hq => ?_⟩
  · simp [State.cell_setCell, hb]
  · exact wrapW_toInt (by omega) (by omega)
  · simp [State.reg_setReg, hq]

/-- Settles O18, by the read of rA and then the push of its value. -/
theorem pushFollowsItsRule : Obligations.PushFollowsItsRule := by
  intro a s
  refine ⟨encodedAs_fields (.push a), fun v sp source stack inside => ?_, fun k source => ?_,
    fun v k source stack => ?_, fun v sp source stack outside => ?_⟩
  · have completes := (pushOp_eq_pushVal source).trans (pushVal_ok.mpr ⟨sp, stack, not_outOfMem.mp inside, rfl⟩)
    exact ⟨_, exec_of_ok completes, pushed_of_inside v inside, rfl⟩
  · exact faultsWith_register (pushOp_source_fault source)
  · exact faultsWith_spIndex ((pushOp_eq_pushVal source).trans (pushVal_sp_fault stack))
  · exact faultsWith_word ((pushOp_eq_pushVal source).trans (pushVal_range_fault stack outside))

/-! ## Pop -/

section
variable {a : Descriptor} {s : State} {sp : Word} {v : Value} {k : FaultCause}

/-- A pop writes sp first and rA after it. -/
theorem popOp_eq_regWrite (stack : HoldsInt s s.cfg.spIndex sp) (cell : CellHolds s (sp.toInt + 1) v) :
    popOp a s = regWrite (s.setReg s.cfg.spIndex (.int (wrapW (sp.toInt + 1)))) a.idx.toNat v := by
  unfold popOp
  rw [popVal_ok.mpr ⟨sp, stack, cell, rfl⟩]
  rfl

theorem popOp_sp_fault (stack : IntFault s s.cfg.spIndex k) : popOp a s = .error ⟨k, s.cfg.spIndex⟩ :=
  Checked.bind_error.mpr (.inl (popVal_error.mpr (.inl ⟨stack, rfl⟩)))

theorem popOp_cell_fault (stack : HoldsInt s s.cfg.spIndex sp) (cell : CellFault s (sp.toInt + 1) k) :
    popOp a s = .error ⟨k, sp.toInt + 1⟩ :=
  Checked.bind_error.mpr (.inl (popVal_error.mpr (.inr ⟨sp, stack, cell, rfl⟩)))

/-- The address of a cell fits W bits (R8), so sp + 1 does not wrap where a pop reads memory. -/
theorem CellHolds.wrapW_toInt {n : Int} (cell : CellHolds s n v) : (wrapW n).toInt = n := by
  obtain ⟨notNegative, inside, -⟩ := cell
  have memSize := Config.memSize_le s.cfg
  exact Machine.wrapW_toInt (by omega) (by omega)

end

/-- Settles O19, by the pop of a value and then the write of rA. -/
theorem popFollowsItsRule : Obligations.PopFollowsItsRule := by
  intro a s
  refine ⟨encodedAs_fields (.pop a), fun sp v stack cell inside => ?_, fun k stack => ?_, fun sp k stack cell => ?_,
    fun sp v stack cell outside => ?_⟩
  · have completes := (popOp_eq_regWrite stack cell).trans (regWrite_ok.mpr ⟨inside, rfl⟩)
    refine ⟨_, exec_of_ok completes, rfl, State.reg_setReg_same _ _ v, fun other => ?_, fun q hqa hqsp => ?_⟩
    · exact ⟨wrapW (sp.toInt + 1), by simp [State.reg_setReg, other.symm], cell.wrapW_toInt⟩
    · simp [State.reg_setReg, hqa, hqsp]
  · exact faultsWith_spIndex (popOp_sp_fault stack)
  · have bounds := word_toInt_bounds sp
    exact faultsWith_of_error (popOp_cell_fault stack cell) (by omega) (by omega)
  · exact faultsWith_register ((popOp_eq_regWrite stack cell).trans (regWrite_error.mpr ⟨outside, rfl⟩))

/-! ## Push, then Pop -/

/-- A state with the registers and memory a push left is ready for a pop: sp holds an address one below the pushed cell. -/
theorem Pushed.poppable {s t t' : State} {sp : Word} {v : Value} (pushed : Pushed s t sp v)
    (inside : ¬ OutOfMem s sp.toInt) (notEmpty : v ≠ .empty) (cfg : t'.cfg = s.cfg) (regs : t'.regs = t.regs)
    (mem : t'.mem = t.mem) :
    ∃ n : Word, n.toInt + 1 = sp.toInt ∧ HoldsInt t' t'.cfg.spIndex n ∧ CellHolds t' sp.toInt v := by
  obtain ⟨cell, -, ⟨n, stack, one_less⟩, -⟩ := pushed
  obtain ⟨low, high⟩ := not_outOfMem.mp inside
  refine ⟨n, by omega, ⟨spIndex_lt t'.cfg, ?_⟩, low, by rwa [cfg], ?_, notEmpty⟩
  · rwa [cfg, State.reg, regs]
  · rwa [State.cell, mem]

/-- Settles O20: what Push leaves (R146) is what Pop needs (R147). -/
theorem popUndoesPush : Obligations.PopUndoesPush := by
  intro x y s v sp source stack
  obtain ⟨-, pushes, -, -, rangeFault⟩ := pushFollowsItsRule x s
  refine ⟨fun inside exists_y other => ?_, rangeFault v sp source stack⟩
  obtain ⟨t, push, pushed, -⟩ := pushes v sp source stack inside
  obtain ⟨-, -, notEmpty⟩ := source
  refine ⟨t, push, fun t' cfg regs mem => ?_⟩
  have cfg_s : t'.cfg = s.cfg := cfg.trans (exec_cfg push)
  obtain ⟨n, address, stack', cell⟩ := pushed.poppable inside notEmpty cfg_s regs mem
  obtain ⟨-, pops, -⟩ := popFollowsItsRule y t'
  rw [← cfg_s] at exists_y other ⊢
  obtain ⟨u, pop, same, popped, restored, -⟩ := pops n v stack' (by rwa [address]) exists_y
  obtain ⟨m, reg_m, m_eq⟩ := restored other
  have m_sp : m = sp := BitVec.eq_of_toInt_eq (m_eq.trans address)
  have kept : u.cell sp.toInt.toNat = t'.cell sp.toInt.toNat := by rw [same]; rfl
  obtain ⟨-, -, cell_v, -⟩ := cell
  exact ⟨u, pop, popped, m_sp ▸ reg_m, kept.trans cell_v⟩

end Sys2Proof.Machine
end

section
/-! PROOFS. Control transfer (43_control_transfer.md R161 to R166): the word, the pc and the stack left, and the faults in the
order of the reads. R166 follows from the rules of Call and Ret, scenario D from the step of a Jump to its own address. -/

namespace Sys2Proof.Machine

/-! ## Jump, JumpIfTrue, Halt -/

theorem exec_jump (addr : Word) (s : State) : exec (.jump addr) s = .next (s.setPc addr) :=
  exec_of_ok rfl

/-- Settles O23: a Jump reads nothing and so cannot fault. -/
theorem jumpFollowsItsRule : Obligations.JumpFollowsItsRule :=
  fun addr s => ⟨encodedAs_fields (.jump addr), exec_jump addr s⟩

theorem exec_jumpIfTrue (addr : Word) (s : State) :
    exec (.jumpIfTrue addr) s = .next (if s.flag then s.setPc addr else s) :=
  exec_of_ok rfl

/-- Settles O24, by the two values of the flag. -/
theorem jumpIfTrueFollowsItsRule : Obligations.JumpIfTrueFollowsItsRule := by
  intro addr s
  refine ⟨encodedAs_fields (.jumpIfTrue addr), fun taken => ?_, fun notTaken => ?_⟩
  · rw [exec_jumpIfTrue, if_pos taken]
    rfl
  · rw [exec_jumpIfTrue, notTaken, if_neg Bool.false_ne_true]

/-- Settles O25: STATE is HALTED, of which the run result is true. -/
theorem haltFollowsItsRule : Obligations.HaltFollowsItsRule :=
  fun s => ⟨encodedAs_fields .halt, s.setFsm .halted, exec_of_ok rfl, rfl, rfl⟩

/-! ## Call -/

section
variable {s t : State} {addr : Word} {e : Raise}

theorem callOp_of_pushed (push : pushVal s (.int s.pc) = .ok t) : callOp addr s = .ok (t.setPc addr) :=
  Checked.bind_ok.mpr ⟨t, push, rfl⟩

theorem callOp_of_push_fault (push : pushVal s (.int s.pc) = .error e) : callOp addr s = .error e :=
  Checked.bind_error.mpr (.inl push)

end

/-- Settles O21: a Call is the push of pc, with the push's faults, and then the jump. -/
theorem callFollowsItsRule : Obligations.CallFollowsItsRule := by
  intro addr s
  refine ⟨encodedAs_fields (.call addr), fun sp stack inside => ?_, fun k stack => ?_, fun sp stack outside => ?_⟩
  · have completes := callOp_of_pushed (addr := addr) (pushVal_ok.mpr ⟨sp, stack, not_outOfMem.mp inside, rfl⟩)
    exact ⟨_, exec_of_ok completes, pushed_of_inside (.int s.pc) inside, rfl⟩
  · exact faultsWith_spIndex (callOp_of_push_fault (pushVal_sp_fault stack))
  · exact faultsWith_word (callOp_of_push_fault (pushVal_range_fault stack outside))

/-! ## Ret -/

section
variable {s : State} {sp : Word} {k : FaultCause}

theorem retOp_ok {r : Word} (stack : HoldsInt s s.cfg.spIndex sp) (cell : CellHolds s (sp.toInt + 1) (.int r)) :
    retOp s = .ok ((s.setReg s.cfg.spIndex (.int (wrapW (sp.toInt + 1)))).setPc r) :=
  Checked.bind_ok.mpr ⟨sp, stackAddress_ok.mpr stack, Checked.bind_ok.mpr ⟨_, memRead_ok.mpr cell,
    Checked.bind_ok.mpr ⟨r, expectInt_ok.mpr rfl,
      Checked.bind_ok.mpr ⟨_, regWrite_ok.mpr ⟨spIndex_lt s.cfg, rfl⟩, rfl⟩⟩⟩⟩

theorem retOp_sp_fault (stack : IntFault s s.cfg.spIndex k) : retOp s = .error ⟨k, s.cfg.spIndex⟩ :=
  Checked.bind_error.mpr (.inl (stackAddress_error.mpr ⟨stack, rfl⟩))

theorem retOp_cell_fault (stack : HoldsInt s s.cfg.spIndex sp) (cell : CellFault s (sp.toInt + 1) k) :
    retOp s = .error ⟨k, sp.toInt + 1⟩ :=
  Checked.bind_error.mpr (.inr ⟨sp, stackAddress_ok.mpr stack,
    Checked.bind_error.mpr (.inl (memRead_error.mpr ⟨cell, rfl⟩))⟩)

/-- The popped value is checked before sp is written (R162). -/
theorem retOp_notInteger {v : Value} (stack : HoldsInt s s.cfg.spIndex sp) (cell : CellHolds s (sp.toInt + 1) v)
    (notInt : v.isInt = false) : retOp s = .error ⟨.retNotInteger, sp.toInt + 1⟩ :=
  Checked.bind_error.mpr (.inr ⟨sp, stackAddress_ok.mpr stack,
    Checked.bind_error.mpr (.inr ⟨v, memRead_ok.mpr cell,
      Checked.bind_error.mpr (.inl (expectInt_error.mpr ⟨notInt, rfl⟩))⟩)⟩)

end

/-- A raise whose info is the address above sp: one more than a word fits W + 1 bits. -/
theorem faultsWith_aboveWord {i : Instr} {s : State} {c : FaultCause} {w : Word}
    (op : instrOp i s = .error ⟨c, w.toInt + 1⟩) : FaultsWith i s c (w.toInt + 1) := by
  have bounds := word_toInt_bounds w
  exact faultsWith_of_error op (by omega) (by omega)

/-- Settles O22, by the reads of sp and of the cell above it, and the check of what that holds. -/
theorem retFollowsItsRule : Obligations.RetFollowsItsRule := by
  intro s
  refine ⟨encodedAs_fields .ret, fun sp r stack cell => ?_, fun k stack => ?_, fun sp k stack cell => ?_,
    fun sp v stack cell notInt => ?_⟩
  · refine ⟨_, exec_of_ok (retOp_ok stack cell), rfl, ?_, fun q other => ?_⟩
    · exact ⟨wrapW (sp.toInt + 1), State.reg_setReg_same s s.cfg.spIndex (.int _), cell.wrapW_toInt⟩
    · simp [State.reg_setReg, other]
  · exact faultsWith_spIndex (retOp_sp_fault stack)
  · exact faultsWith_aboveWord (retOp_cell_fault stack cell)
  · exact faultsWith_aboveWord (retOp_notInteger stack cell notInt)

/-! ## Call, then Ret -/

/-- Settles O26: the cell a Call pushed is the one above the sp it left, so a Ret there pops the return address. -/
theorem retUndoesCall : Obligations.RetUndoesCall := by
  intro addr s sp stack inside
  obtain ⟨-, calls, -⟩ := callFollowsItsRule addr s
  obtain ⟨t, call, ⟨-, -, ⟨n, reg_n, one_less⟩, -⟩, called⟩ := calls sp stack inside
  refine ⟨t, call, congrArg State.pc called, fun t' cfg reg cell => ?_⟩
  have cfg_s : t'.cfg = s.cfg := cfg.trans (exec_cfg call)
  have address : n.toInt + 1 = sp.toInt := by omega
  obtain ⟨low, high⟩ := not_outOfMem.mp inside
  have stack' : HoldsInt t' t'.cfg.spIndex n := ⟨spIndex_lt t'.cfg, by rw [cfg_s, reg, reg_n]⟩
  have top : CellHolds t' sp.toInt (.int s.pc) := ⟨low, by rwa [cfg_s], cell, by simp⟩
  obtain ⟨-, returns, -⟩ := retFollowsItsRule t'
  obtain ⟨u, ret, returned, ⟨m, reg_m, m_eq⟩, -⟩ := returns n s.pc stack' (by rwa [address])
  have m_sp : m = sp := BitVec.eq_of_toInt_eq (m_eq.trans address)
  have pc_u : u.pc = s.pc := by rw [returned]
  exact ⟨u, ret, pc_u, by rw [← cfg_s, reg_m, m_sp]⟩

/-! ## A Jump to itself -/

theorem State.eventTaken_of_no_host {s : State} (host : s.host = []) : s.eventTaken = s := by
  cases s
  cases host
  rfl

theorem runFuel_zero_of_run {s : State} (run : s.fsm = .run) : runFuel 0 s = .outOfFuel s := by
  simp only [runFuel, report, run]

theorem runFuel_succ_of_step {s t : State} {k : Nat} (running : ¬ s.ended) (h : step s = .next t) :
    runFuel (k + 1) s = runFuel k t := by
  simp only [runFuel, if_neg running, h]

/-- The state of scenario D: in RUN, undisturbed by the host, at a Jump to its own address. -/
structure JumpsToItself (s : State) : Prop where
  /-- An instruction runs. -/
  run : s.fsm = .run
  /-- The host does nothing more. -/
  host : s.host = []
  /-- The instruction at pc jumps to pc. -/
  fetches : Fetches s (.jump s.pc)

namespace JumpsToItself
variable {s : State}

theorem not_ended (h : JumpsToItself s) : ¬ s.ended := by
  simp [h.run]

/-- The step latches CUR_PC; that the fetch advanced pc is undone by the jump (R105, R163). -/
theorem step_eq (h : JumpsToItself s) : step s = .next (latchPc s) := by
  have alone : s.runsAlone := ⟨h.run, by simp [State.nextEvent, h.host]⟩
  calc step s
    _ = runInstr s := by rw [step_of_runsAlone alone, State.eventTaken_of_no_host h.host]
    _ = exec (.jump s.pc) (advancePc (latchPc s)) := runInstr_of_fetches h.fetches
    _ = .next (latchPc s) := exec_jump s.pc _

/-- The fetch address is latched in CUR_PC, which none of the three conditions reads. -/
theorem latched (h : JumpsToItself s) : JumpsToItself (latchPc s) :=
  ⟨h.run, h.host, h.fetches⟩

theorem runFuel_outOfFuel (k : Nat) (h : JumpsToItself s) :
    ∃ t, runFuel k s = .outOfFuel t ∧ t.fsm = .run ∧ t.pc = s.pc := by
  induction k generalizing s with
  | zero => exact ⟨s, runFuel_zero_of_run h.run, h.run, rfl⟩
  | succ k ih =>
    rw [runFuel_succ_of_step h.not_ended h.step_eq]
    exact ih h.latched

end JumpsToItself

/-- Settles O36, by induction on the fuel (log entry 17): each step leads to a state of the same kind. -/
theorem jumpToItselfNeverEnds : Obligations.JumpToItselfNeverEnds :=
  fun k _ run host fetches => JumpsToItself.runFuel_outOfFuel k ⟨run, host, fetches⟩

end Sys2Proof.Machine
end

section
/-! PROOFS. Input and output (44_io.md R180 to R184): the rule of Echo, the request step of Iinput and its completion on each
response, the wait between them, and the output under every step. -/

namespace Sys2Proof.Machine

/-! ## Echo -/

theorem echoOp_ok {a : Descriptor} {s : State} {v : Value} (source : SourceHolds s a v) :
    echoOp a s = .ok (s.emit v) :=
  Checked.bind_ok.mpr ⟨v, resolve_ok.mpr source, rfl⟩

theorem echoOp_fault {a : Descriptor} {s : State} {k : FaultCause} {n : Int} (source : SourceFault s a k n) :
    echoOp a s = .error ⟨k, n⟩ :=
  Checked.bind_error.mpr (.inl (resolve_error.mpr source))

/-- A raise of a register operand as a source: its info is a register's index or an effective address (R203). -/
theorem faultsWith_source {i : Instr} {s : State} {d : Descriptor} {k : FaultCause} {n : Int}
    (source : SourceFault s d k n) (op : instrOp i s = .error ⟨k, n⟩) : FaultsWith i s k n := by
  obtain ⟨-, -, rfl⟩ | ⟨-, -, rfl⟩ | ⟨-, points, -⟩ := source
  · exact faultsWith_register op
  · exact faultsWith_register op
  · exact faultsWith_address points op

/-- Settles O27, by what the operand resolves to, or how it faults. -/
theorem echoFollowsItsRule : Obligations.EchoFollowsItsRule :=
  fun a _ => ⟨encodedAs_fields (.echo a), fun _ source => exec_of_ok (echoOp_ok source),
    fun _ _ source => faultsWith_source source (echoOp_fault source)⟩

/-! ## Iinput -/

theorem requestOutstanding_iff {s : State} : s.requestOutstanding = true ↔ s.fsm = .waitIn :=
  beq_iff_eq

theorem iinputComplete_int {s : State} (n : Word) (inside : ¬ OutOfMem s s.inAddr.toInt) :
    iinputComplete (.int n) s = ((s.setCell s.inAddr.toInt.toNat (.int n)).setFlag true).setFsm .run := by
  have completes := inputOp_int_ok (n := n).mpr ⟨not_outOfMem.mp inside, rfl⟩
  simp only [iinputComplete, completes]

theorem iinputComplete_int_fault {s : State} (n : Word) (outside : OutOfMem s s.inAddr.toInt) :
    iinputComplete (.int n) s = enterFaulted s ⟨.memRange, s.inAddr.toInt⟩ := by
  have raised := inputOp_int_error (n := n).mpr ⟨outside, rfl⟩
  simp only [iinputComplete, raised]

/-- Settles O28: a response in WAIT_IN is the step, and each response has its own completion. -/
theorem iinputFollowsItsRule : Obligations.IinputFollowsItsRule := by
  refine ⟨fun addr s => ⟨encodedAs_fields (.iinput addr), exec_of_ok rfl⟩, fun s => requestOutstanding_iff,
    fun s n wait event inside => ?_, fun s n wait event outside => ?_, fun s wait event => ?_, fun s wait event => ?_⟩
  · rw [step_respond wait event, iinputComplete_int (s := s.eventTaken) n inside]
    refine ⟨_, rfl, rfl, State.cell_setCell_same s.eventTaken _ (.int n), fun a other => ?_⟩
    exact Cells.read_write_other s.mem (.int n) other
  · have bounds := word_toInt_bounds s.inAddr
    have exact_info : (BitVec.ofInt 33 s.inAddr.toInt).toInt = s.inAddr.toInt := infoWord_toInt (by omega) (by omega)
    rw [step_respond wait event, iinputComplete_int_fault (s := s.eventTaken) n outside]
    exact ⟨_, rfl, exact_info, rfl⟩
  · rcases event with event | event <;> exact step_respond wait event
  · exact step_respond wait event

/-- Settles O41: without a response or a reset the step in WAIT_IN is an idle one. -/
theorem waitInNeedsAResponse : Obligations.WaitInNeedsAResponse :=
  fun _ => step_waits

/-! ## The output -/

theorem iinputComplete_output (r : InResponse) (s : State) : (iinputComplete r s).output = s.output := by
  obtain ⟨n, -, -, h⟩ | ⟨n, -, -, h⟩ | ⟨-, h⟩ | ⟨-, h⟩ := iinputComplete_cases r s <;> rw [h] <;> rfl

/-- No event of the host but `reset` touches the output. -/
theorem hostAct_output {e : HostEvent} {s t : State} (noReset : e ≠ .reset) (h : hostAct e s = some t) :
    t.output = s.output := by
  cases e with
  | idle => cases h
  | reset => exact absurd rfl noReset
  | loadMem a v =>
    obtain ⟨-, hwrite⟩ := Option.ite_none_right_eq_some.mp h
    obtain ⟨-, rfl⟩ := portWrite_some.mp hwrite
    rfl
  | start | loadReg i v | loadFlag b =>
    obtain ⟨-, ⟨⟩⟩ := Option.ite_none_right_eq_some.mp h
    rfl
  | respond r =>
    obtain ⟨-, ⟨⟩⟩ := Option.ite_none_right_eq_some.mp h
    exact iinputComplete_output r s

/-- An Echo that does not fault appends the value its operand resolves to (R181). -/
theorem exec_echo_output {a : Descriptor} {s t : State} (h : exec (.echo a) s = .next t) (safe : t.safe) :
    ∃ v, SourceHolds s a v ∧ t.output = s.output ++ [v] := by
  obtain ⟨v, source, rfl⟩ | ⟨e, -, rfl⟩ := exec_cases h
  · exact ⟨v, source, rfl⟩
  · exact absurd rfl safe

/-- The output under an instruction: as before, or with the value an Echo resolved (R180). -/
theorem exec_output_grows {i : Instr} {s t : State} (h : exec i s = .next t) :
    t.output = s.output ∨ ∃ a v, i = .echo a ∧ SourceHolds s a v ∧ t.output = s.output ++ [v] := by
  obtain effect | ⟨e, -, rfl⟩ := exec_cases h
  · by_cases echo : ∃ a, i = .echo a
    · obtain ⟨a, rfl⟩ := echo
      obtain ⟨v, source, rfl⟩ := effect
      exact .inr ⟨a, v, rfl, source, rfl⟩
    · exact .inl (effect.output (not_exists.mp echo))
  · exact .inl rfl

/-- The output under an instruction step: a fault of the fetch or an illegal word sends nothing either. -/
theorem runInstr_output {s t : State} (h : runInstr s = .next t) :
    t.output = s.output ∨ ∃ a v, Fetches s (.echo a) ∧ SourceHolds s a v ∧ t.output = s.output ++ [v] := by
  obtain ⟨-, rfl⟩ | ⟨-, -, rfl⟩ | ⟨w, e, -, -, rfl⟩ | ⟨w, i, cell, decoded, hexec⟩ := runInstr_cases h
  case inr.inr.inr =>
    obtain same | ⟨a, v, rfl, source, output⟩ := exec_output_grows hexec
    · exact .inl same
    · exact .inr ⟨a, v, ⟨w, cell, decoded⟩, source, output⟩
  all_goals exact .inl rfl

/-- Settles O53: no event but a reset touches the output, and of the instructions only Echo does. -/
theorem outputGrowsOnlyByEcho : Obligations.OutputGrowsOnlyByEcho := by
  intro s t h noReset
  constructor
  · obtain hact | ⟨run, hrun⟩ | ⟨-, rfl⟩ := step_cases h
    · exact .inl (hostAct_output (s := s.eventTaken) noReset hact)
    · exact (runInstr_output (s := s.eventTaken) hrun).imp id fun echo => ⟨run, echo⟩
    · exact .inl rfl
  · intro a run fetches safe
    rw [step_of_runsAlone ⟨run, noReset⟩, runInstr_of_fetches (s := s.eventTaken) fetches] at h
    obtain ⟨v, source, output⟩ := exec_echo_output h safe
    exact ⟨v, SourceHolds.ne_empty (s := s) source, source, output⟩

end Sys2Proof.Machine
end

section
/-! PROOFS. The faults of a step (60_exceptions.md R201, R203, R204): what an instruction can raise and that it is true of the
state, every way into FAULTED, and what such a step leaves. -/

namespace Sys2Proof

theorem Descriptor.idx_le (d : Descriptor) : d.idx.toNat ≤ 255 := Nat.le_of_lt_succ d.idx.isLt

/-- R8 leaves SP_INDEX eight bits. -/
theorem Config.spIndex_le (c : Config) : c.spIndex ≤ 255 := by
  obtain ⟨-, -, sp_lt, regCount_le⟩ := configOk_iff.mp c.ok
  omega

end Sys2Proof

namespace Sys2Proof.Machine

/-! ## What an instruction can raise -/

/-- The range of effective addresses, the base and the offset at their ends; the addresses that a stack access or a literal
gives lie in it too (R75). -/
abbrev AddressRange (a : Int) : Prop := -2147516416 ≤ a ∧ a ≤ 2147516414

/-- The fault of an operand: of a register, under its eight-bit index, or of a cell, under its exact address (R203). -/
def OperandFault (s : State) (e : Raise) : Prop :=
  (∃ i : Nat, i ≤ 255 ∧ e.info = i ∧ IntFault s i e.cause) ∨ (AddressRange e.info ∧ CellFault s e.info e.cause)

theorem OperandFault.register {s : State} {e : Raise} {i : Nat} (index : i ≤ 255) (info : e.info = i)
    (fault : IntFault s i e.cause) : OperandFault s e :=
  .inl ⟨i, index, info, fault⟩

theorem OperandFault.cell {s : State} {e : Raise} {a : Int} (bounds : AddressRange a) (info : e.info = a)
    (fault : CellFault s a e.cause) : OperandFault s e := by
  subst info
  exact .inr ⟨bounds, fault⟩

/-- An access outside memory, reading or writing, is a fault of the cell. -/
theorem OperandFault.outOfMem {s : State} {a : Int} (bounds : AddressRange a) (outside : OutOfMem s a) :
    OperandFault s ⟨.memRange, a⟩ :=
  .cell bounds rfl (.inl ⟨outside, rfl⟩)

/-- Whatever the computation raises is the fault of an operand in `s`. -/
def RaisesOperandFault {α : Type} (s : State) (x : Checked α) : Prop := ∀ e, x = .error e → OperandFault s e

theorem RaisesOperandFault.ok {α : Type} {s : State} (a : α) : RaisesOperandFault s (.ok a : Checked α) :=
  fun _ h => nomatch h

theorem RaisesOperandFault.bind {α β : Type} {s : State} {x : Checked α} {f : α → Checked β}
    (hx : RaisesOperandFault s x) (hf : ∀ a, x = .ok a → RaisesOperandFault s (f a)) :
    RaisesOperandFault s (x >>= f) := by
  intro e h
  obtain raised | ⟨a, answered, raised⟩ := Checked.bind_error.mp h
  · exact hx e raised
  · exact hf a answered e raised

theorem word_address_bounds (w : Word) : AddressRange w.toInt ∧ AddressRange (w.toInt + 1) := by
  have bounds := word_toInt_bounds w
  omega

section
variable (s : State)

theorem regRead_operandFault {i : Nat} (index : i ≤ 255) : RaisesOperandFault s (regRead s i) := by
  intro e raised
  obtain ⟨fault, info⟩ := regRead_error.mp raised
  exact .register index info (.inl fault)

/-- The state written to may carry staged writes: only the number of registers is looked at. -/
theorem regWrite_operandFault {t : State} {i : Nat} (cfg : t.cfg = s.cfg) (index : i ≤ 255) (v : Value) :
    RaisesOperandFault s (regWrite t i v) := by
  intro e raised
  obtain ⟨outside, rfl⟩ := regWrite_error.mp raised
  exact .register index rfl (.inl (.inl ⟨cfg ▸ outside, rfl⟩))

theorem memRead_operandFault {a : Int} (bounds : AddressRange a) : RaisesOperandFault s (memRead s a) := by
  intro e raised
  obtain ⟨fault, info⟩ := memRead_error.mp raised
  exact .cell bounds info fault

theorem intOperand_operandFault (d : Descriptor) : RaisesOperandFault s (intOperand s d) := by
  intro e raised
  obtain ⟨fault, info⟩ := intOperand_error.mp raised
  exact .register d.idx_le info fault

theorem stackAddress_operandFault : RaisesOperandFault s (stackAddress s) := by
  intro e raised
  obtain ⟨fault, info⟩ := stackAddress_error.mp raised
  exact .register s.cfg.spIndex_le info fault

theorem resolve_operandFault (d : Descriptor) : RaisesOperandFault s (resolve s d) := by
  intro e raised
  obtain ⟨-, fault, info⟩ | ⟨-, fault, info⟩ | ⟨-, points, fault⟩ := resolve_error.mp raised
  · exact .register d.idx_le info (.inl fault)
  · exact .register d.idx_le info fault
  · exact .cell (effectiveAddress_bounds (effectiveAddress_ok.mpr points)) rfl fault

theorem storeOperand_operandFault (d : Descriptor) (v : Value) : RaisesOperandFault s (storeOperand s d v) := by
  intro e raised
  obtain ⟨-, outside, rfl⟩ | ⟨-, fault, info⟩ | ⟨-, a, points, outside, rfl⟩ := storeOperand_error.mp raised
  · exact .register d.idx_le rfl (.inl (.inl ⟨outside, rfl⟩))
  · exact .register d.idx_le info fault
  · exact .outOfMem (effectiveAddress_bounds (effectiveAddress_ok.mpr points)) outside

theorem pushVal_operandFault (v : Value) : RaisesOperandFault s (pushVal s v) := by
  intro e raised
  obtain ⟨fault, info⟩ | ⟨sp, -, outside, rfl⟩ := pushVal_error.mp raised
  · exact .register s.cfg.spIndex_le info fault
  · exact .outOfMem (word_address_bounds sp).1 outside

theorem popVal_operandFault : RaisesOperandFault s (popVal s) := by
  intro e raised
  obtain ⟨fault, info⟩ | ⟨sp, -, fault, info⟩ := popVal_error.mp raised
  · exact .register s.cfg.spIndex_le info fault
  · exact .cell (word_address_bounds sp).2 info fault

theorem binaryOp_operandFault (f : Word → Word → Word) (a b c : Descriptor) :
    RaisesOperandFault s (binaryOp f a b c s) :=
  .bind (intOperand_operandFault s b) fun _ _ => .bind (intOperand_operandFault s c) fun _ _ =>
    regWrite_operandFault s rfl a.idx_le _

theorem unaryOp_operandFault (f : Word → Word) (a : Descriptor) : RaisesOperandFault s (unaryOp f a s) :=
  .bind (intOperand_operandFault s a) fun _ _ => regWrite_operandFault s rfl a.idx_le _

theorem popOp_operandFault (a : Descriptor) : RaisesOperandFault s (popOp a s) := by
  refine .bind (popVal_operandFault s) fun ⟨v, t⟩ popped => ?_
  obtain ⟨sp, -, -, rfl⟩ := popVal_ok.mp popped
  exact regWrite_operandFault s (t := s.setReg _ _) rfl a.idx_le v

/-- No instruction but Ret raises anything but the fault of an operand. -/
theorem instrOp_operandFault {i : Instr} (notRet : i ≠ .ret) : RaisesOperandFault s (instrOp i s) := by
  cases i with
  | add a b c | mul a b c => exact binaryOp_operandFault s _ a b c
  | increment a | decrement a => exact unaryOp_operandFault s _ a
  | moveReg d c => exact .bind (resolve_operandFault s c) fun _ _ => storeOperand_operandFault s d _
  | moveInt d n | moveText d n => exact storeOperand_operandFault s d _
  | load a addr =>
    exact .bind (memRead_operandFault s (word_address_bounds addr).1) fun _ _ =>
      regWrite_operandFault s rfl a.idx_le _
  | push a => exact .bind (regRead_operandFault s a.idx_le) fun _ _ => pushVal_operandFault s _
  | pop a => exact popOp_operandFault s a
  | call addr => exact .bind (pushVal_operandFault s _) fun _ _ => .ok _
  | ret => exact absurd rfl notRet
  | testEquals a b =>
    exact .bind (regRead_operandFault s a.idx_le) fun _ _ =>
      .bind (regRead_operandFault s b.idx_le) fun _ _ => .ok _
  | echo a => exact .bind (resolve_operandFault s a) fun _ _ => .ok _
  | jump addr | jumpIfTrue addr | iinput addr | halt => exact .ok _

end

/-- A Ret raises the fault of an operand, or RET_NOT_INTEGER for the address of a cell that holds something else (R162). -/
theorem retOp_fault {s : State} {e : Raise} (raised : retOp s = .error e) :
    OperandFault s e ∨ (e.cause = .retNotInteger ∧ ∃ v, CellHolds s e.info v ∧ v.isInt = false) := by
  obtain raised | ⟨sp, -, raised⟩ := Checked.bind_error.mp raised
  · exact .inl (stackAddress_operandFault s e raised)
  obtain raised | ⟨v, read, raised⟩ := Checked.bind_error.mp raised
  · exact .inl (memRead_operandFault s (word_address_bounds sp).2 e raised)
  obtain raised | ⟨r, -, raised⟩ := Checked.bind_error.mp raised
  · obtain ⟨notInt, rfl⟩ := expectInt_error.mp raised
    exact .inr ⟨rfl, v, memRead_ok.mp read, notInt⟩
  obtain raised | ⟨t, -, raised⟩ := Checked.bind_error.mp raised
  · exact .inl (regWrite_operandFault s rfl s.cfg.spIndex_le _ e raised)
  · cases raised

/-! ## A raise that is true -/

/-- What the raise says is true of the state `s`, and its info fits the W + 1 bits of FAULT_INFO (R32, R201). -/
structure TrueRaise (s : State) (e : Raise) : Prop where
  /-- Cause and info describe `s`. -/
  explains : CauseExplains s e.cause e.info
  /-- The info is not below what FAULT_INFO can keep. -/
  low : -4294967296 ≤ e.info
  /-- The info is not above what FAULT_INFO can keep. -/
  high : e.info < 4294967296

/-- The fault record keeps a true raise as it is. -/
theorem TrueRaise.recorded {s : State} {e : Raise} (h : TrueRaise s e) (u : State) :
    CauseExplains s (enterFaulted u e).faultCause (enterFaulted u e).faultInfo.toInt := by
  have exact_info : (enterFaulted u e).faultInfo.toInt = e.info := infoWord_toInt h.low h.high
  rw [exact_info]
  exact h.explains

theorem IntFault.explains {s : State} {i : Nat} {c : FaultCause} (fault : IntFault s i c) (index : i ≤ 255) :
    CauseExplains s c i := by
  obtain (⟨outside, rfl⟩ | ⟨exists_i, empty, rfl⟩) | ⟨exists_i, filled, notInt, rfl⟩ := fault
  · exact ⟨by omega, by omega⟩
  · exact ⟨i, rfl, exists_i, empty⟩
  · exact ⟨i, s.reg i, rfl, ⟨exists_i, rfl, filled⟩, notInt⟩

theorem CellFault.explains {s : State} {a : Int} {c : FaultCause} (fault : CellFault s a c) : CauseExplains s c a := by
  obtain ⟨outside, rfl⟩ | ⟨low, high, empty, rfl⟩ := fault
  · exact outside
  · exact ⟨low, high, empty⟩

theorem OperandFault.trueRaise {s : State} {e : Raise} (h : OperandFault s e) : TrueRaise s e := by
  obtain ⟨i, index, info, fault⟩ | ⟨bounds, fault⟩ := h
  · exact ⟨info ▸ IntFault.explains fault index, by omega, by omega⟩
  · exact ⟨CellFault.explains fault, by omega, by omega⟩

/-- RET_NOT_INTEGER is true of a state that fetches a Ret: the address is that of a cell, so it fits. -/
theorem trueRaise_retNotInteger {s : State} {e : Raise} {v : Value} (fetches : Fetches s .ret)
    (cause : e.cause = .retNotInteger) (cell : CellHolds s e.info v) (notInt : v.isInt = false) : TrueRaise s e := by
  have memSize := Config.memSize_le s.cfg
  have ⟨low, high, _⟩ := cell
  refine ⟨?_, by omega, by omega⟩
  rw [cause]
  exact ⟨fetches, v, cell, notInt⟩

/-- What the fetched instruction raises is true of the state it was fetched in: the latch and the advance of pc leave
parameters, registers and memory as they are. -/
theorem Fetches.trueRaise {s : State} {i : Instr} {e : Raise} (fetches : Fetches s i)
    (raised : instrOp i (advancePc (latchPc s)) = .error e) : TrueRaise s e := by
  by_cases isRet : i = .ret
  · subst isRet
    obtain fault | ⟨cause, v, cell, notInt⟩ := retOp_fault raised
    · exact OperandFault.trueRaise (s := s) fault
    · exact trueRaise_retNotInteger fetches cause cell notInt
  · have fault := instrOp_operandFault (advancePc (latchPc s)) isRet e raised
    exact OperandFault.trueRaise (s := s) fault

/-- What a fetch raises is true: its info is pc. -/
theorem trueRaise_fetch {s : State} {c : FaultCause} (explains : CauseExplains s c s.pc.toInt) :
    TrueRaise s ⟨c, s.pc.toInt⟩ := by
  have bounds := word_toInt_bounds s.pc
  exact ⟨explains, by dsimp only; omega, by dsimp only; omega⟩

/-! ## Every way into FAULTED -/

/-- An instruction step that enters FAULTED raised something true, in the fetch and before pc was advanced, or after it. -/
theorem runInstr_faults {s t : State} (run : s.fsm = .run) (h : runInstr s = .next t) (faulted : t.fsm = .faulted) :
    ∃ e, TrueRaise s e ∧
      (((e.cause = .fetchRange ∨ e.cause = .fetchNotInstr) ∧ t = enterFaulted (latchPc s) e) ∨
        (e.cause.afterFetch = true ∧ t = enterFaulted (advancePc (latchPc s)) e)) := by
  obtain ⟨outside, rfl⟩ | ⟨inside, noInstr, rfl⟩ | ⟨w, e, cell, illegal, rfl⟩ | ⟨w, i, cell, decoded, hexec⟩ :=
    runInstr_cases h
  · exact ⟨⟨.fetchRange, s.pc.toInt⟩, trueRaise_fetch ⟨outside, rfl⟩, .inl ⟨.inl rfl, rfl⟩⟩
  · exact ⟨⟨.fetchNotInstr, s.pc.toInt⟩, trueRaise_fetch ⟨inside, noInstr, rfl⟩, .inl ⟨.inr rfl, rfl⟩⟩
  · exact ⟨⟨.illegalInstr, 0⟩, ⟨⟨⟨w, e, cell, illegal⟩, rfl⟩, by decide, by decide⟩, .inr ⟨rfl, rfl⟩⟩
  · obtain effect | ⟨e, raised, rfl⟩ := exec_cases hexec
    · exact absurd faulted (effect.safe (by simp [run]))
    · exact ⟨e, Fetches.trueRaise ⟨w, cell, decoded⟩ raised, .inr ⟨instrOp_raises i _ e raised, rfl⟩⟩

/-- A completion of an Iinput that enters FAULTED does so through `enterFaulted`, never with a cause of the fetch (R183). -/
theorem iinputComplete_faults {r : InResponse} {s : State} (faulted : (iinputComplete r s).fsm = .faulted) :
    ∃ e, e.cause.afterFetch = true ∧ iinputComplete r s = enterFaulted s e := by
  obtain ⟨n, -, -, h⟩ | ⟨n, -, -, h⟩ | ⟨-, h⟩ | ⟨-, h⟩ := iinputComplete_cases r s
  · exact absurd faulted (by simp [h])
  · exact ⟨_, rfl, h⟩
  · exact absurd faulted (by simp [h])
  · exact ⟨_, rfl, h⟩

/-- A host event that brings the core into FAULTED is a response in WAIT_IN: every other leaves it in LOAD or RUN. -/
theorem hostAct_faults {e : HostEvent} {s t : State} (h : hostAct e s = some t) (faulted : t.fsm = .faulted) :
    s.fsm = .waitIn ∧ ∃ r, t = iinputComplete r s := by
  obtain rfl | ⟨-, rfl⟩ | ⟨load, a, v, -, rfl⟩ | ⟨load, i, v, -, rfl⟩ | ⟨load, b, rfl⟩ | response := hostAct_cases h
  case inr.inr.inr.inr.inr => exact response
  case inl | inr.inl => cases faulted
  all_goals cases load.symm.trans faulted

/-- Every step into FAULTED: an instruction step in RUN that raised something, or a completion in WAIT_IN that did. -/
theorem step_faults {s t : State} (h : step s = .next t) (notFaulted : s.fsm ≠ .faulted) (faulted : t.fsm = .faulted) :
    (s.fsm = .run ∧ runInstr s.eventTaken = .next t) ∨
    (s.fsm = .waitIn ∧ ∃ e, e.cause.afterFetch = true ∧ t = enterFaulted s.eventTaken e) := by
  obtain hact | run | ⟨-, rfl⟩ := step_cases h
  · obtain ⟨wait, r, rfl⟩ := hostAct_faults hact faulted
    exact .inr ⟨wait, iinputComplete_faults faulted⟩
  · exact .inl run
  · exact absurd faulted notFaulted

/-! ## The obligations -/

/-- Settles O34: each way into FAULTED goes through `enterFaulted`, from the state before the instruction but for CUR_PC and
pc. -/
theorem faultsArePrecise : Obligations.FaultsArePrecise := by
  intro s t h notFaulted faulted
  obtain ⟨run, hrun⟩ | ⟨wait, e, later, rfl⟩ := step_faults h notFaulted faulted
  · have notWait : s.fsm ≠ .waitIn := by simp [run]
    obtain ⟨e, -, ⟨fetch, rfl⟩ | ⟨later, rfl⟩⟩ := runInstr_faults (s := s.eventTaken) run hrun faulted
    · have notNone : e.cause ≠ .none := by rcases fetch with cause | cause <;> simp [cause]
      exact ⟨rfl, rfl, rfl, rfl, rfl, rfl, rfl, rfl, notNone,
        fun _ => ⟨rfl, fun _ => rfl, fun notFetch => absurd fetch notFetch⟩, fun wait => absurd wait notWait⟩
    · obtain ⟨notNone, notFetch⟩ := FaultCause.afterFetch_iff.mp later
      exact ⟨rfl, rfl, rfl, rfl, rfl, rfl, rfl, rfl, notNone,
        fun _ => ⟨rfl, fun fetch => absurd fetch notFetch, fun _ => rfl⟩, fun wait => absurd wait notWait⟩
  · have notRun : s.fsm ≠ .run := by simp [wait]
    obtain ⟨notNone, -⟩ := FaultCause.afterFetch_iff.mp later
    exact ⟨rfl, rfl, rfl, rfl, rfl, rfl, rfl, rfl, notNone, fun run => absurd run notRun, fun _ => ⟨rfl, rfl⟩⟩

/-- Settles O35: what the step raised was true, and the record keeps it; taking the host's event changes nothing that a cause
speaks of. -/
theorem faultRecordTellsTheTruth : Obligations.FaultRecordTellsTheTruth := by
  intro s t h run faulted
  obtain ⟨-, hrun⟩ | ⟨wait, -⟩ := step_faults h (by simp [run]) faulted
  · obtain ⟨e, true_e, ⟨-, rfl⟩ | ⟨-, rfl⟩⟩ := runInstr_faults (s := s.eventTaken) run hrun faulted
    all_goals exact true_e.recorded _
  · cases run.symm.trans wait

end Sys2Proof.Machine
end

section
/-! PROOFS. Reset and the host outside a run (70_reset_and_hazards.md): the reset values and the invariant from reset on (R230,
R231), the load requests (R232), and the read-back (R235). -/

namespace Sys2Proof.Machine

/-! ## Reset -/

theorem resetValues_resetOf (cfg : Config) (h : List HostEvent) : ResetValues (State.resetOf cfg h) where
  regs := Cells.read_nil
  mem := Cells.read_nil
  pc := rfl
  flag := rfl
  fsm := rfl
  record := ⟨rfl, rfl, rfl⟩
  latches := ⟨rfl, rfl⟩
  output := rfl

/-- Settles O42: a reset in any state answers the machine as created, for the same configuration and the host's later
events. -/
theorem resetRestoresEveryValue : Obligations.ResetRestoresEveryValue := by
  constructor
  · intro s event
    exact ⟨resetCore s.eventTaken, step_reset event, resetValues_resetOf s.cfg s.host.tail, rfl, rfl⟩
  · intro cfg h
    exact ⟨resetValues_resetOf cfg h, rfl⟩

/-! ## The invariant from reset on -/

theorem machineInv_resetOf (cfg : Config) (h : List HostEvent) : MachineInv (State.resetOf cfg h) := by
  have values := resetValues_resetOf cfg h
  have stored : (State.resetOf cfg h).storedOk := State.storedOk_resetCore (State.resetOf cfg h)
  obtain ⟨curPc, inAddr⟩ := values.latches
  exact .of_load stored values.record values.fsm ⟨values.pc, curPc, inAddr, values.output⟩

/-- Settles O55: `State.reset` is the reset state of the reference configuration. -/
theorem resetMeetsTheMachineInvariant : Obligations.ResetMeetsTheMachineInvariant :=
  ⟨machineInv_resetOf Config.reference [], machineInv_resetOf⟩

/-- What every step keeps holds in every state a run reaches from one where it holds. -/
theorem Reaches.keeps {P : State → Prop} (step_keeps : ∀ s t, P s → step s = .next t → P t) {s t : State}
    (reaches : Reaches s t) (initial : P s) : P t := by
  induction reaches with
  | here => exact initial
  | next t u _ last ih => exact step_keeps t u ih last

/-- Settles O57: the invariant holds at reset (O55), and every step keeps it (O56). -/
theorem everyReachableStateMeetsTheInvariant : Obligations.EveryReachableStateMeetsTheInvariant := by
  intro cfg h t reaches
  exact reaches.keeps everyStepKeepsTheMachineInvariant (machineInv_resetOf cfg h)

/-! ## The load requests -/

section
variable {s : State} {v : Value}

theorem step_loadMem {a : Int} (load : s.fsm = .load) (event : s.nextEvent = .loadMem a v) (inside : ¬ OutOfMem s a) :
    step s = .next (s.eventTaken.setCell a.toNat v) := by
  have written : s.eventTaken.portWrite a v = some (s.eventTaken.setCell a.toNat v) :=
    portWrite_some.mpr ⟨not_outOfMem.mp inside, rfl⟩
  exact step_of_accepted (by simp [event, hostAct, load, written])

theorem step_loadMem_outside {a : Int} (load : s.fsm = .load) (event : s.nextEvent = .loadMem a v)
    (outside : OutOfMem s a) : step s = .next s.eventTaken := by
  have refused : s.eventTaken.portWrite a v = none := portWrite_none.mpr outside
  exact step_idles (by simp [load]) (by simp [event, hostAct, refused])

theorem step_loadReg {i : Int} (load : s.fsm = .load) (event : s.nextEvent = .loadReg i v) (low : 0 ≤ i)
    (high : i < (s.cfg.regCount : Int)) : step s = .next (s.eventTaken.setReg i.toNat v) :=
  step_of_accepted (by simp [event, hostAct, load, low, high])

theorem step_loadReg_outside {i : Int} (load : s.fsm = .load) (event : s.nextEvent = .loadReg i v)
    (outside : i < 0 ∨ (s.cfg.regCount : Int) ≤ i) : step s = .next s.eventTaken := by
  have refused : ¬ (0 ≤ i ∧ i < (s.cfg.regCount : Int)) := by omega
  exact step_idles (by simp [load]) (by simp [event, hostAct, load, refused])

theorem step_loadFlag {b : Bool} (load : s.fsm = .load) (event : s.nextEvent = .loadFlag b) :
    step s = .next (s.eventTaken.setFlag b) :=
  step_of_accepted (by simp [event, hostAct, load])

/-- Outside LOAD each of the three load requests is refused (R232). -/
theorem hostAct_load_request_outside_load {e : HostEvent} (notLoad : s.fsm ≠ .load)
    (request : (∃ a v, e = .loadMem a v) ∨ (∃ i v, e = .loadReg i v) ∨ ∃ b, e = .loadFlag b) : hostAct e s = none := by
  obtain ⟨a, v, rfl⟩ | ⟨i, v, rfl⟩ | ⟨b, rfl⟩ := request
  all_goals simp [hostAct, notLoad]

end

/-- Settles O39: each request in LOAD by its range, and any of them refused in every other state. -/
theorem loaderWritesOnlyInLoad : Obligations.LoaderWritesOnlyInLoad := by
  refine ⟨fun s a v load event => ⟨fun inside => ?_, step_loadMem_outside load event⟩,
    fun s i v load event => ⟨fun low high => ?_, step_loadReg_outside load event⟩,
    fun s b load event => step_loadFlag load event, fun s notLoad request => ?_⟩
  · exact ⟨_, step_loadMem load event inside, rfl, State.cell_setCell_same _ _ v,
      fun b other => by simp [State.cell_setCell, other]⟩
  · exact ⟨_, step_loadReg load event low high, rfl, State.reg_setReg_same _ _ v,
      fun r other => by simp [State.reg_setReg, other]⟩
  · exact step_eventIgnored (hostAct_load_request_outside_load (s := s.eventTaken) notLoad request)

/-! ## The read-back -/

theorem readable_of_load_or_ended {s : State} (h : s.fsm = .load ∨ s.ended) : s.readable = true := by
  obtain load | halted | faulted := h
  · simp only [State.readable, load]
  · simp only [State.readable, halted]
  · simp only [State.readable, faulted]

theorem not_readable_of_run_or_waitIn {s : State} (h : s.fsm = .run ∨ s.fsm = .waitIn) : ¬ s.readable = true := by
  obtain run | wait := h
  · simp [State.readable, run]
  · simp [State.readable, wait]

/-- Settles O44: each read-back is guarded by `readable`, which says LOAD, HALTED and FAULTED. -/
theorem readBackOnlyOutsideARun : Obligations.ReadBackOnlyOutsideARun := by
  intro s i a
  constructor
  · intro outsideRun
    have readable := readable_of_load_or_ended outsideRun
    refine ⟨if_pos readable, if_pos readable, fun inside => if_pos ⟨readable, inside⟩, fun inside => ?_⟩
    calc s.hostReadMem a = s.portRead a := if_pos readable
      _ = some (s.cell a.toNat) := portRead_some.mpr ⟨not_outOfMem.mp inside, rfl⟩
  · intro inRun
    have notReadable := not_readable_of_run_or_waitIn inRun
    exact ⟨if_neg notReadable, if_neg notReadable, if_neg fun ⟨readable, _⟩ => notReadable readable,
      if_neg notReadable⟩

end Sys2Proof.Machine
end
